-- ==== Sys2Proof/Word.lean ====
section
/-! DEFINITION. The widths of the spec's values (rule R7: bit 0 is the least significant bit). -/

namespace Sys2Proof

/-- A byte of memory, of an instruction or of the 512-byte image (rule R61). -/
abbrev Byte := BitVec 8

/-- A 16-bit value: a selector, FCW, FSW, FTW, a 16-bit offset (rules R27, R32 to R34). -/
abbrev Half := BitVec 16

/-- A 32-bit value: a general register, EIP, an offset, a linear address (rules R6 `XLEN`, R21, R22, R61). -/
abbrev Word := BitVec 32

/-- A 64-bit model-specific register (rule R30, the width from general knowledge; log entry 9). -/
abbrev MsrWord := BitVec 64

/-- An 80-bit floating-point register (rule R38). -/
abbrev Ext := BitVec 80

end Sys2Proof
end

