-- ==== Sys2Proof/Config.lean ====
section
/-! DEFINITION. What an implementation fixes (rule R6): the parameters, as a plain record that State
carries and no step changes, and the free values (`draw` of rule R9) as constants without a body. -/

namespace Sys2Proof

/-- The six segment registers (rule R26). -/
inductive SegName where
  | cs | ss | ds | es | fs | gs
  deriving DecidableEq, Repr

/-- A segment register: the visible selector and the hidden part (rule R28). The limit is kept by its
effect, the highest valid offset `effLimit`; there is no raw limit field (rule R29, decision D20). -/
structure SegReg where
  /-- `X.SEL`, bits 1:0 the RPL (rule R27). -/
  sel : Half
  /-- `BASE`, the linear address of offset 0. -/
  base : Word
  /-- `EffLimit`, the highest valid offset (rule R29). -/
  effLimit : Word
  /-- `G`, 4 KB granularity. -/
  g : Bool
  /-- `S`. -/
  s : Bool
  /-- `TYPE_xCRA`. -/
  typ : BitVec 4
  /-- `D`, 32-bit code or stack. -/
  d : Bool
  /-- `DPL`. -/
  dpl : BitVec 2
  /-- `P`, present. -/
  p : Bool
  deriving DecidableEq, Repr

/-- What `Translate` answers for one linear address (rule R71). -/
inductive PageResult where
  /-- The linear range is mapped to the physical range that starts here. -/
  | to (phys : Word)
  /-- `#PF(fault-code)`; the spec gives the code no format (rules R71, R163). -/
  | fault (code : Nat)
  deriving DecidableEq, Repr

/-- One row of the `Translate` parameter (rule R71): what it answers for the linear addresses `first`
to `last`, one direction and one privilege level. A table of such rows over the identity is any
function of the parameter's type (log entry 5). -/
structure PageRule where
  first : Word
  last : Word
  write : Bool
  cpl : BitVec 2
  result : PageResult
  deriving DecidableEq, Repr

/-- One row of the `SegCheck` parameter (rule R70): its verdict on a 512-byte operand that starts at
the offsets `first` to `last` of one segment register with one content, in one direction. -/
structure SegRule where
  seg : SegName
  reg : SegReg
  first : Word
  last : Word
  write : Bool
  ok : Bool
  deriving DecidableEq, Repr

/-- The implementation parameters of rule R6 that a run keeps: the CPUID constants of rule R31, the
presence of FXSAVE and FXRSTOR (decision D23), and the two oracles `SegCheck` and `Translate` as tables
(decision D6). -/
structure Params where
  /-- `CPUID.SEP`, bit 11. -/
  cpuidSep : Bool
  /-- `CPUID.Family`. -/
  family : Nat
  /-- `CPUID.Model`. -/
  model : Nat
  /-- `CPUID.Stepping`. -/
  stepping : Nat
  /-- `HasFXSR`. -/
  hasFxsr : Bool
  /-- `SegCheck`, rows before the default of `Machine.segCheck`. -/
  segRules : List SegRule
  /-- `Translate`, rows before the identity. -/
  pageRules : List PageRule
  deriving DecidableEq, Repr

/-- `MSRW` (rule R6, decision D18): how many bits of a model-specific register the zero test reads. -/
def Config.msrw : Nat := 32

/-- `ReservedFill` (rule R6, decision D11): the byte that draw number `n` leaves in a reserved byte or
bit group of the image. A free value. -/
opaque Config.freeByte : Nat → Byte

/-- The upper 16 bits that FXRSTOR leaves in `FIP.off` or `FDP.off` in 16-bit mode (rule R102, entry U10).
A free value. -/
opaque Config.freeHalf : Nat → Half

/-- Whether an FXSAVE that leaves DP unwritten keeps the old DS bytes too (rule R113, decision D15). A
free value. -/
opaque Config.dsFieldKept : Nat → Bool

/-- `FaultChoice` (rule R175, decision D4): which of several applicable exceptions is reported. A free
value. -/
opaque Config.faultChoice : Nat → Nat

/-- Which of several different segment-override prefixes takes effect; rule R86 speaks of one (log entry
14). A free value. -/
opaque Config.overrideChoice : Nat → Nat

end Sys2Proof
end

