-- ==== Sys2Proof/Syntax.lean ====
section
/-! DEFINITION. The four instructions of rule R1 with their prefixes and memory operands, as the encodings
of `30_encoding.md` admit them. -/

namespace Sys2Proof

/-- The address size of an instruction (rule R84). -/
inductive AddrSize where
  | a16 | a32
  deriving DecidableEq, Repr

/-- The size an address-size prefix switches to (rule R84). -/
def AddrSize.other : AddrSize → AddrSize
  | .a16 => .a32
  | .a32 => .a16

/-- The eight general registers in the order of their numbers (rule R21). -/
inductive GReg where
  | eax | ecx | edx | ebx | esp | ebp | esi | edi
  deriving DecidableEq, Repr

/-- The base sums of 16-bit addressing in the order of `rm` (rule R89). -/
inductive Base16 where
  | bxsi | bxdi | bpsi | bpdi | si | di | bp | bx
  deriving DecidableEq, Repr

/-- The SIB scale: the index is multiplied by 1, 2, 4 or 8 (rule R88). -/
inductive Scale where
  | x1 | x2 | x4 | x8
  deriving DecidableEq, Repr

/-- The displacement of 16-bit addressing: absent for `mod` 00, `disp8` for 01, `disp16` for 10 (rule R89). -/
inductive Disp16 where
  | absent
  | d8 (b : Byte)
  | d16 (h : Half)
  deriving DecidableEq, Repr

/-- The displacement of 32-bit addressing: absent for `mod` 00, `disp8` for 01, `disp32` for 10 (rule R88). -/
inductive Disp32 where
  | absent
  | d8 (b : Byte)
  | d32 (w : Word)
  deriving DecidableEq, Repr

/-- The memory operand `m512byte` as ModR/M, SIB and displacement name it (rules R83, R88, R89). -/
inductive MemOp where
  /-- 32-bit addressing, `rm` names a base register. -/
  | based32 (base : GReg) (disp : Disp32)
  /-- 32-bit addressing, `mod` 00 and `rm` 101: `disp32` alone. -/
  | absolute32 (disp : Word)
  /-- 32-bit addressing with a SIB byte; `index` is absent for the index field 100. -/
  | sib (scale : Scale) (index : Option GReg) (base : GReg) (disp : Disp32)
  /-- 32-bit addressing with a SIB byte whose base field is 101 under `mod` 00: `disp32` in place of a base. -/
  | sibAbsolute (scale : Scale) (index : Option GReg) (disp : Word)
  /-- 16-bit addressing with a base sum. -/
  | based16 (base : Base16) (disp : Disp16)
  /-- 16-bit addressing, `mod` 00 and `rm` 110: `disp16` alone. -/
  | absolute16 (disp : Half)
  deriving DecidableEq, Repr

/-- The prefixes of rule R90. -/
inductive Prefix where
  /-- F0h. -/
  | lock
  /-- F3h. -/
  | rep
  /-- F2h. -/
  | repne
  /-- 66h. -/
  | operandSize
  /-- 67h. -/
  | addressSize
  /-- 2Eh, 36h, 3Eh, 26h, 64h, 65h. -/
  | segment (seg : SegName)
  deriving DecidableEq, Repr

/-- The instructions, one constructor per row of the opcode table (rules R1, R81). FXSAVE and FXRSTOR keep
their prefix bytes in the order they stand in; SYSENTER and SYSEXIT admit none (rule R94). -/
inductive Instr where
  | fxrstor (pre : List Prefix) (op : MemOp)
  | fxsave (pre : List Prefix) (op : MemOp)
  | sysenter
  | sysexit
  deriving DecidableEq, Repr

end Sys2Proof
end

