-- ==== Sys2Proof/WellFormed.lean ====
section
/-! DEFINITION. Which terms of the syntax stand for an encoding: the operand forms that `mod`, `rm` and
the SIB byte keep for something else (rules R88, R89), and the address size (rule R84). -/

namespace Sys2Proof

/-- The addressing an operand uses. -/
def MemOp.addrSize : MemOp → AddrSize
  | .based32 _ _ | .absolute32 _ | .sib _ _ _ _ | .sibAbsolute _ _ _ => .a32
  | .based16 _ _ | .absolute16 _ => .a16

/-- An operand that some ModR/M byte encodes. `rm` 100 announces a SIB byte, so ESP is no plain base; a base
EBP (or BP) without displacement is the encoding of the form without base; the index field 100 means no
index, so ESP is no index (rules R88, R89). -/
def MemOp.wellFormed : MemOp → Bool
  | .based32 base disp => base != .esp && (base != .ebp || disp != .absent)
  | .absolute32 _ => true
  | .sib _ index base disp => index != some .esp && (base != .ebp || disp != .absent)
  | .sibAbsolute _ index _ => index != some .esp
  | .based16 base disp => base != .bp || disp != .absent
  | .absolute16 _ => true

/-- The address size an instruction has: the default, or the other size when an address-size prefix is
present (rule R84; for a repeated prefix log entry 14). -/
def addrSizeOf (dflt : AddrSize) (pre : List Prefix) : AddrSize :=
  if pre.contains .addressSize then dflt.other else dflt

/-- An instruction that some byte sequence encodes where the default address size is `dflt`. -/
def Instr.wellFormed (dflt : AddrSize) : Instr → Bool
  | .fxrstor pre op => op.wellFormed && op.addrSize == addrSizeOf dflt pre
  | .fxsave pre op => op.wellFormed && op.addrSize == addrSizeOf dflt pre
  | .sysenter => true
  | .sysexit => true

end Sys2Proof
end

