-- ==== Sys2Proof/Decode.lean ====
section
/-! DEFINITION. The decoder of rule R97, total on any bytes, and after it the encoder, both from the
encoding tables of `30_encoding.md` (rules R81 to R90). -/

namespace Sys2Proof

/-- Why the decoder gives a byte sequence no meaning. -/
inductive DecodeRefusal where
  /-- The byte after the prefixes is not 0Fh (rules R95, R97 step 2). -/
  | firstByteNotDescribed
  /-- The second opcode byte is not 34h, 35h or AEh (rules R95, R97 step 3). -/
  | secondByteNotDescribed
  /-- A prefix stands before SYSENTER or SYSEXIT (rule R94). -/
  | prefixNotDescribed
  /-- `0F AE` with `reg` 010 to 111 (rule R95). -/
  | regFieldNotDescribed
  /-- `0F AE /0` or `/1` with `mod` 11 (rules R83, R95). -/
  | registerForm
  deriving DecidableEq, Repr

/-- What the decoder answers. -/
inductive Decoded where
  /-- An instruction, and the bytes after it. -/
  | ok (i : Instr) (rest : List Byte)
  /-- The bytes are no encoding of the four instructions. -/
  | refused (why : DecodeRefusal)
  /-- The bytes end before the instruction does. -/
  | truncated
  deriving DecidableEq, Repr

/-! ## Decoding -/

/-- The prefix a byte is (rules R86, R90). -/
def prefixOf (b : Byte) : Option Prefix :=
  match b.toNat with
  | 0xF0 => some .lock
  | 0xF3 => some .rep
  | 0xF2 => some .repne
  | 0x66 => some .operandSize
  | 0x67 => some .addressSize
  | 0x2E => some (.segment .cs)
  | 0x36 => some (.segment .ss)
  | 0x3E => some (.segment .ds)
  | 0x26 => some (.segment .es)
  | 0x64 => some (.segment .fs)
  | 0x65 => some (.segment .gs)
  | _ => none

/-- The prefix bytes at the front, and what follows them (rule R97 step 1). -/
def splitPrefixes : List Byte → List Prefix × List Byte
  | [] => ([], [])
  | b :: bs =>
    match prefixOf b with
    | some p => (p :: (splitPrefixes bs).1, (splitPrefixes bs).2)
    | none => ([], b :: bs)

/-- `mod`, bits 7:6 of the ModR/M byte (rule R82). -/
def modOf (m : Byte) : BitVec 2 := m.extractLsb' 6 2

/-- `reg`, bits 5:3 of the ModR/M byte, and `index` of the SIB byte (rules R82, R88). -/
def regOf (m : Byte) : BitVec 3 := m.extractLsb' 3 3

/-- `rm`, bits 2:0 of the ModR/M byte, and `base` of the SIB byte (rules R82, R88). -/
def rmOf (m : Byte) : BitVec 3 := m.extractLsb' 0 3

/-- The general register with a number (rule R21). -/
def GReg.ofNum (n : BitVec 3) : GReg :=
  match n.toNat with
  | 0 => .eax | 1 => .ecx | 2 => .edx | 3 => .ebx | 4 => .esp | 5 => .ebp | 6 => .esi | _ => .edi

/-- The base sum `rm` names in 16-bit addressing (rule R89). -/
def Base16.ofNum (n : BitVec 3) : Base16 :=
  match n.toNat with
  | 0 => .bxsi | 1 => .bxdi | 2 => .bpsi | 3 => .bpdi | 4 => .si | 5 => .di | 6 => .bp | _ => .bx

/-- The scale field of the SIB byte (rule R88). -/
def Scale.ofNum (n : BitVec 2) : Scale :=
  match n.toNat with
  | 0 => .x1 | 1 => .x2 | 2 => .x4 | _ => .x8

/-- The index field of the SIB byte: 100 means no index (rule R88). -/
def indexOf (n : BitVec 3) : Option GReg :=
  if n = 4#3 then none else some (GReg.ofNum n)

/-- One byte, and what follows. -/
def take8 : List Byte → Option (Byte × List Byte)
  | b :: bs => some (b, bs)
  | [] => none

/-- A little-endian 16-bit value, and what follows (rule R85). -/
def take16 : List Byte → Option (Half × List Byte)
  | b0 :: b1 :: bs => some (b1 ++ b0, bs)
  | _ => none

/-- A little-endian 32-bit value, and what follows (rule R85). -/
def take32 : List Byte → Option (Word × List Byte)
  | b0 :: b1 :: b2 :: b3 :: bs => some (b3 ++ b2 ++ b1 ++ b0, bs)
  | _ => none

/-- The displacement of 32-bit addressing that `mod` asks for (rules R85, R88). -/
def decodeDisp32 (mod : BitVec 2) (bs : List Byte) : Option (Disp32 × List Byte) :=
  match mod.toNat with
  | 0 => some (.absent, bs)
  | 1 => (take8 bs).map fun r => (.d8 r.1, r.2)
  | _ => (take32 bs).map fun r => (.d32 r.1, r.2)

/-- The displacement of 16-bit addressing that `mod` asks for (rules R85, R89). -/
def decodeDisp16 (mod : BitVec 2) (bs : List Byte) : Option (Disp16 × List Byte) :=
  match mod.toNat with
  | 0 => some (.absent, bs)
  | 1 => (take8 bs).map fun r => (.d8 r.1, r.2)
  | _ => (take16 bs).map fun r => (.d16 r.1, r.2)

/-- The SIB form (rule R88), from the SIB byte on. -/
def decodeSib (mod : BitVec 2) : List Byte → Option (MemOp × List Byte)
  | [] => none
  | sib :: bs =>
    if mod = 0#2 ∧ rmOf sib = 5#3 then
      (take32 bs).map fun r => (.sibAbsolute (.ofNum (modOf sib)) (indexOf (regOf sib)) r.1, r.2)
    else
      (decodeDisp32 mod bs).map fun r =>
        (.sib (.ofNum (modOf sib)) (indexOf (regOf sib)) (.ofNum (rmOf sib)) r.1, r.2)

/-- The operand of 32-bit addressing, from the byte after ModR/M on (rule R88). -/
def decodeOperand32 (mod : BitVec 2) (rm : BitVec 3) (bs : List Byte) : Option (MemOp × List Byte) :=
  if rm = 4#3 then decodeSib mod bs
  else if mod = 0#2 ∧ rm = 5#3 then (take32 bs).map fun r => (.absolute32 r.1, r.2)
  else (decodeDisp32 mod bs).map fun r => (.based32 (.ofNum rm) r.1, r.2)

/-- The operand of 16-bit addressing, from the byte after ModR/M on (rule R89). -/
def decodeOperand16 (mod : BitVec 2) (rm : BitVec 3) (bs : List Byte) : Option (MemOp × List Byte) :=
  if mod = 0#2 ∧ rm = 6#3 then (take16 bs).map fun r => (.absolute16 r.1, r.2)
  else (decodeDisp16 mod bs).map fun r => (.based16 (.ofNum rm) r.1, r.2)

/-- The operand for an address size (rule R87). -/
def decodeOperand (size : AddrSize) (mod : BitVec 2) (rm : BitVec 3) (bs : List Byte) :
    Option (MemOp × List Byte) :=
  match size with
  | .a32 => decodeOperand32 mod rm bs
  | .a16 => decodeOperand16 mod rm bs

/-- An operand completes an instruction, or the bytes ended first. -/
def finishOperand (mk : MemOp → Instr) : Option (MemOp × List Byte) → Decoded
  | some (op, rest) => .ok (mk op) rest
  | none => .truncated

/-- `0F AE`: the ModR/M byte selects FXSAVE or FXRSTOR (rule R97 step 5). -/
def decodeModRM (dflt : AddrSize) (pre : List Prefix) : List Byte → Decoded
  | [] => .truncated
  | m :: bs =>
    if modOf m = 3#2 then .refused .registerForm
    else if regOf m = 0#3 then
      finishOperand (.fxsave pre) (decodeOperand (addrSizeOf dflt pre) (modOf m) (rmOf m) bs)
    else if regOf m = 1#3 then
      finishOperand (.fxrstor pre) (decodeOperand (addrSizeOf dflt pre) (modOf m) (rmOf m) bs)
    else .refused .regFieldNotDescribed

/-- SYSENTER and SYSEXIT stand without any prefix (rules R94, R97 step 4). -/
def decodePlain (pre : List Prefix) (i : Instr) (rest : List Byte) : Decoded :=
  if pre = [] then .ok i rest else .refused .prefixNotDescribed

/-- The second opcode byte (rule R97 steps 3 to 5). -/
def decodeSecond (dflt : AddrSize) (pre : List Prefix) : List Byte → Decoded
  | [] => .truncated
  | b :: bs =>
    if b = 0x34#8 then decodePlain pre .sysenter bs
    else if b = 0x35#8 then decodePlain pre .sysexit bs
    else if b = 0xAE#8 then decodeModRM dflt pre bs
    else .refused .secondByteNotDescribed

/-- The first opcode byte (rule R97 step 2). -/
def decodeFirst (dflt : AddrSize) (pre : List Prefix) : List Byte → Decoded
  | [] => .truncated
  | b :: bs => if b = 0x0F#8 then decodeSecond dflt pre bs else .refused .firstByteNotDescribed

/-- The decoder (rule R97); `dflt` is the default address size of the code segment and mode (rule R84). -/
def decode (dflt : AddrSize) (bytes : List Byte) : Decoded :=
  decodeFirst dflt (splitPrefixes bytes).1 (splitPrefixes bytes).2

/-! ## Encoding -/

/-- The byte of a prefix (rules R86, R90). -/
def Prefix.byte : Prefix → Byte
  | .lock => 0xF0
  | .rep => 0xF3
  | .repne => 0xF2
  | .operandSize => 0x66
  | .addressSize => 0x67
  | .segment .cs => 0x2E
  | .segment .ss => 0x36
  | .segment .ds => 0x3E
  | .segment .es => 0x26
  | .segment .fs => 0x64
  | .segment .gs => 0x65

/-- The number of a general register (rule R21). -/
def GReg.num : GReg → BitVec 3
  | .eax => 0 | .ecx => 1 | .edx => 2 | .ebx => 3 | .esp => 4 | .ebp => 5 | .esi => 6 | .edi => 7

/-- The `rm` value of a 16-bit base sum (rule R89). -/
def Base16.num : Base16 → BitVec 3
  | .bxsi => 0 | .bxdi => 1 | .bpsi => 2 | .bpdi => 3 | .si => 4 | .di => 5 | .bp => 6 | .bx => 7

/-- The scale field (rule R88). -/
def Scale.num : Scale → BitVec 2
  | .x1 => 0 | .x2 => 1 | .x4 => 2 | .x8 => 3

/-- The index field (rule R88). -/
def indexNum : Option GReg → BitVec 3
  | none => 4
  | some r => r.num

/-- A 16-bit value, least significant byte first (rule R85). -/
def bytes16 (h : Half) : List Byte := [h.extractLsb' 0 8, h.extractLsb' 8 8]

/-- A 32-bit value, least significant byte first (rule R85). -/
def bytes32 (w : Word) : List Byte :=
  [w.extractLsb' 0 8, w.extractLsb' 8 8, w.extractLsb' 16 8, w.extractLsb' 24 8]

/-- The `mod` field of a 32-bit displacement (rule R88). -/
def Disp32.mod : Disp32 → BitVec 2
  | .absent => 0
  | .d8 _ => 1
  | .d32 _ => 2

/-- The bytes of a 32-bit displacement. -/
def Disp32.bytes : Disp32 → List Byte
  | .absent => []
  | .d8 b => [b]
  | .d32 w => bytes32 w

/-- The `mod` field of a 16-bit displacement (rule R89). -/
def Disp16.mod : Disp16 → BitVec 2
  | .absent => 0
  | .d8 _ => 1
  | .d16 _ => 2

/-- The bytes of a 16-bit displacement. -/
def Disp16.bytes : Disp16 → List Byte
  | .absent => []
  | .d8 b => [b]
  | .d16 h => bytes16 h

/-- A ModR/M or SIB byte from its three fields (rules R82, R88). -/
def fieldsByte (hi : BitVec 2) (mid low : BitVec 3) : Byte := hi ++ mid ++ low

/-- ModR/M, SIB and displacement of an operand, with the opcode's `reg` field (rules R82, R88, R89). -/
def encodeOperand (reg : BitVec 3) : MemOp → List Byte
  | .based32 base disp => fieldsByte disp.mod reg base.num :: disp.bytes
  | .absolute32 w => fieldsByte 0 reg 5 :: bytes32 w
  | .sib scale index base disp =>
    fieldsByte disp.mod reg 4 :: fieldsByte scale.num (indexNum index) base.num :: disp.bytes
  | .sibAbsolute scale index w =>
    fieldsByte 0 reg 4 :: fieldsByte scale.num (indexNum index) 5 :: bytes32 w
  | .based16 base disp => fieldsByte disp.mod reg base.num :: disp.bytes
  | .absolute16 h => fieldsByte 0 reg 6 :: bytes16 h

/-- The bytes of an instruction, lowest address first (rules R80, R81). -/
def encode : Instr → List Byte
  | .fxrstor pre op => pre.map Prefix.byte ++ (0x0F#8 :: 0xAE#8 :: encodeOperand 1 op)
  | .fxsave pre op => pre.map Prefix.byte ++ (0x0F#8 :: 0xAE#8 :: encodeOperand 0 op)
  | .sysenter => [0x0F#8, 0x34#8]
  | .sysexit => [0x0F#8, 0x35#8]

/-- The byte count of an instruction, prefixes, ModR/M, SIB and displacement included (rule R22). -/
def Instr.length (i : Instr) : Nat := (encode i).length

/-! ## The opcode table's words -/

/-- The instruction bytes of a table word: the table reads the opcode bytes as one number with the first
byte most significant (rule R97), here `nbits` bits of `w`; the operand bytes after them are 0, up to the
longest instruction, 8 bytes. -/
def tableBytes (nbits w : Nat) : List Byte :=
  let n := nbits / 8
  (List.range 8).map fun k => if k < n then BitVec.ofNat 8 (w >>> (8 * (n - 1 - k))) else 0#8

/-- The instruction the decoder reads from a table word, under the default address size that the machine
has after reset (rule R84: 16 bits in real-address mode). -/
def decodeTableWord (nbits w : Nat) : Option Instr :=
  match decode .a16 (tableBytes nbits w) with
  | .ok i _ => some i
  | _ => none

end Sys2Proof
end

