-- ==== Sys2Proof/Machine/State.lean ====
section
/-! DEFINITION. The state of the machine (rule R20), the reasons a step can stop, and the state after reset. -/

namespace Sys2Proof.Machine

/-- The general registers `x[0]` to `x[7]` (rule R21). -/
structure Regs where
  eax : Word
  ecx : Word
  edx : Word
  ebx : Word
  esp : Word
  ebp : Word
  esi : Word
  edi : Word
  deriving DecidableEq, Repr

/-- The physical floating-point registers FR0 to FR7, which the MMX registers share (rules R38, R41). -/
structure FpRegs where
  fr0 : Ext
  fr1 : Ext
  fr2 : Ext
  fr3 : Ext
  fr4 : Ext
  fr5 : Ext
  fr6 : Ext
  fr7 : Ext
  deriving DecidableEq, Repr

/-- A byte of memory whose content the spec leaves open after an FXSAVE (rules R113, R116), as plain data:
the number of the draw, and what is known of the byte. `Machine.OpenByte.value` reads it. -/
inductive OpenByte where
  /-- The bits that `mask` selects are those of `bits`; the others are a free value. -/
  | masked (draw : Nat) (mask bits : Byte)
  /-- `written` or `kept`, a free choice. -/
  | either (draw : Nat) (written kept : Byte)
  deriving DecidableEq, Repr

/-- Memory: a total function from 32-bit addresses to bytes, with no hole and no device (rule R62). `cells` lists
the bytes that are not 0, addresses strictly rising; `opens` lists the bytes that are a free value, addresses
strictly rising, none of them in `cells`. An address in neither reads as 0 (log entry 3). -/
structure Memory where
  cells : List Host.Cell
  opens : List (Nat × OpenByte)
  deriving DecidableEq, Repr

/-- The state of the machine (rule R20). -/
structure State where
  /-- General registers (rule R21). -/
  regs : Regs
  /-- `pc`, EIP (rule R22). -/
  eip : Word
  /-- EFLAGS; IF bit 9, VM bit 17, AC bit 18 (rule R23). -/
  eflags : Word
  /-- CR0; PE bit 0, EM bit 2, TS bit 3, AM bit 18 (rule R24). -/
  cr0 : Word
  /-- CPL (rule R25). -/
  cpl : BitVec 2
  /-- Segment register CS (rules R26, R28). -/
  cs : SegReg
  /-- Segment register SS. -/
  ss : SegReg
  /-- Segment register DS. -/
  ds : SegReg
  /-- Segment register ES. -/
  es : SegReg
  /-- Segment register FS. -/
  fs : SegReg
  /-- Segment register GS. -/
  gs : SegReg
  /-- SYSENTER_CS_MSR, address 174h (rule R30). -/
  sysenterCs : MsrWord
  /-- SYSENTER_ESP_MSR, address 175h (rule R30). -/
  sysenterEsp : MsrWord
  /-- SYSENTER_EIP_MSR, address 176h (rule R30). -/
  sysenterEip : MsrWord
  /-- FCW (rule R32). -/
  fcw : Half
  /-- FSW (rule R33). -/
  fsw : Half
  /-- FTW, two bits per physical register (rule R34). -/
  ftw : Half
  /-- FOP (rule R35). -/
  fop : BitVec 11
  /-- `FIP.off` (rule R36). -/
  fipOff : Word
  /-- `FIP.sel` (rule R36). -/
  fipSel : Half
  /-- `FDP.off` (rule R37). -/
  fdpOff : Word
  /-- `FDP.sel` (rule R37). -/
  fdpSel : Half
  /-- FR0 to FR7 (rule R38). -/
  fr : FpRegs
  /-- `FpPrevNoMem`: the instruction before was an FP instruction without memory operand (rule R43). -/
  fpPrevNoMem : Bool
  /-- Memory (rules R61, R62). -/
  mem : Memory
  /-- The physical addresses that an FXSAVE of this run has written, strictly rising (rule R77). -/
  savedBytes : List Nat
  /-- The model's own: how many free values the run has drawn (`draw` of rule R9). -/
  draws : Nat
  /-- The implementation parameters (rule R6). -/
  params : Params
  deriving DecidableEq, Repr

/-- A raised exception ends the run: `Fault(name, error code, pc of the faulting instruction)` (rules R160, R176,
R177). Every one of them is safe: the model stops, where the hardware enters a handler the spec does not
describe. -/
inductive Fault where
  /-- #GP(0): an operand off a 16-byte boundary or outside a limit (FXSAVE, FXRSTOR), SYSENTER_CS_MSR zero or
  CR0.PE clear (SYSENTER, SYSEXIT), CPL not 0 (SYSEXIT) (rule R161). Safe. -/
  | generalProtection (pc : Word)
  /-- #SS(0): an operand outside the SS limit (FXSAVE, FXRSTOR) (rule R162). Safe. -/
  | stackSegment (pc : Word)
  /-- #PF(fault-code): `Translate` faults on a byte of the operand (FXSAVE, FXRSTOR) or of the instruction (the fetch)
  (rules R163, R152). Safe. -/
  | pageFault (code : Nat) (pc : Word)
  /-- #NM: CR0.EM or CR0.TS set (FXSAVE, FXRSTOR) (rule R164). Safe. -/
  | deviceNotAvailable (pc : Word)
  /-- #AC(0): a misaligned operand with alignment checking on (FXSAVE, FXRSTOR) (rule R165). Safe. -/
  | alignmentCheck (pc : Word)
  /-- #UD: a LOCK prefix (FXSAVE, FXRSTOR) (rule R166). Safe. -/
  | invalidOpcode (pc : Word)
  /-- Interrupt 13: an operand outside 0 to 0FFFFH in real-address or virtual-8086 mode (FXSAVE, FXRSTOR) (rule R167).
  Safe. -/
  | interrupt13 (pc : Word)
  deriving DecidableEq, Repr

/-- The situations the spec gives no meaning (`refuse` of rule R9). Every one of them is safe: the model stops,
where the hardware does something the spec does not say. -/
inductive Refusal where
  /-- An instruction without a meaning in `exec`; no arm raises it. Safe. -/
  | notModelled (mnemonic : String)
  /-- The bytes at `pc` are none of the four instructions (rules R5, R94, R95, R97); the fetch raises it. Safe. -/
  | undecodable (why : DecodeRefusal)
  /-- The instruction does not lie below 2^32 and inside the limit of CS (rule R22); the fetch raises it. Safe. -/
  | codeOutsideLimit
  /-- An instruction byte was written by an FXSAVE of this run (rule R77); the fetch raises it. Safe. -/
  | fetchOfSavedByte
  /-- FXSAVE or FXRSTOR under REP, REPNE or the operand-size override (rules R92, R109, R118). Safe. -/
  | reservedPrefix
  /-- FXSAVE or FXRSTOR on a part without them (rule R6 `HasFXSR`, decision D23). Safe. -/
  | fxsrAbsent
  /-- FXSAVE or FXRSTOR through a segment whose base is not a multiple of 16 (rule R65). Safe. -/
  | segmentBaseUnaligned
  /-- FXRSTOR of an image whose byte 5 is not 0 (rule R106). Safe. -/
  | tagWordUpperByteNonzero
  /-- `pc + length` of a completed FXSAVE or FXRSTOR reaches 2^32 (rules R14, R22). Safe. -/
  | pcPastTop
  /-- SYSENTER or SYSEXIT on a part without the facility (rule R151). Safe. -/
  | fastSyscallAbsent
  /-- SYSENTER or SYSEXIT with a SYSENTER_CS_MSR value of rule R139. Safe. -/
  | selectorNotSettled
  /-- SYSENTER with SYSENTER_ESP_MSR or SYSENTER_EIP_MSR above FFFFFFFFh (rule R139). Safe. -/
  | msrAbove32Bits
  deriving DecidableEq, Repr

/-! ## Reset

The spec gives no reset value (rule R190). The values are those of the family that rule R191 prints, and for the
registers that rule R191 passes over the family's again or a choice of the model: log entry 1, line by line. -/

/-- The parameters of the part that `State.reset` describes: a Pentium II that has all four instructions, with no
paging and limit checks by `EffLimit` (log entries 2, 5, 6). -/
def pentiumII : Params where
  cpuidSep := true
  family := 6
  model := 5
  stepping := 2
  hasFxsr := true
  segRules := []
  pageRules := []

/-- A segment register as the family's reset leaves it: a 64 KB present data segment at privilege 0. -/
def segAtReset (sel : Half) (base : Word) : SegReg where
  sel := sel
  base := base
  effLimit := 0xFFFF
  g := false
  s := true
  typ := 0b0011
  d := false
  dpl := 0
  p := true

/-- The machine right after reset: real-address mode at F000h:FFF0h. -/
def State.reset : State where
  regs := { eax := 0, ecx := 0, edx := 0x652, ebx := 0, esp := 0, ebp := 0, esi := 0, edi := 0 }
  eip := 0xFFF0
  eflags := 0x2
  cr0 := 0x60000010
  cpl := 0
  cs := segAtReset 0xF000 0xFFFF0000
  ss := segAtReset 0 0
  ds := segAtReset 0 0
  es := segAtReset 0 0
  fs := segAtReset 0 0
  gs := segAtReset 0 0
  sysenterCs := 0
  sysenterEsp := 0
  sysenterEip := 0
  fcw := 0x0040
  fsw := 0
  ftw := 0x5555
  fop := 0
  fipOff := 0
  fipSel := 0
  fdpOff := 0
  fdpSel := 0
  fr := { fr0 := 0, fr1 := 0, fr2 := 0, fr3 := 0, fr4 := 0, fr5 := 0, fr6 := 0, fr7 := 0 }
  fpPrevNoMem := false
  mem := { cells := [], opens := [] }
  savedBytes := []
  draws := 0
  params := pentiumII

end Sys2Proof.Machine
end

