-- ==== Sys2Proof/Machine/Flags.lean ====
section
/-! DEFINITION. The flags and modes the four instructions read and write (rules R23 to R25, R102, R180), and
the fields of the floating-point status, control and tag words (rules R32 to R34, R38 to R42, R112, R115). -/

namespace Sys2Proof.Machine

/-! ## EFLAGS, CR0 and the modes -/

/-- EFLAGS.IF (rule R23). -/
def State.flagIF (s : State) : Bool := s.eflags.getLsbD 9

/-- EFLAGS.VM (rule R23). -/
def State.flagVM (s : State) : Bool := s.eflags.getLsbD 17

/-- EFLAGS.AC (rule R23). -/
def State.flagAC (s : State) : Bool := s.eflags.getLsbD 18

/-- EFLAGS with VM and IF cleared and every other bit kept (rules R131, R135). -/
def clearVmIf (eflags : Word) : Word := eflags &&& 0xFFFDFDFF#32

/-- CR0.PE (rule R24). -/
def State.crPE (s : State) : Bool := s.cr0.getLsbD 0

/-- CR0.EM (rule R24). -/
def State.crEM (s : State) : Bool := s.cr0.getLsbD 2

/-- CR0.TS (rule R24). -/
def State.crTS (s : State) : Bool := s.cr0.getLsbD 3

/-- CR0.AM (rule R24). -/
def State.crAM (s : State) : Bool := s.cr0.getLsbD 18

/-- The modes of rule R180. -/
inductive Mode where
  /-- CR0.PE = 0. -/
  | realAddress
  /-- CR0.PE = 1, EFLAGS.VM = 0. -/
  | protectedMode
  /-- CR0.PE = 1, EFLAGS.VM = 1. -/
  | virtual8086
  deriving DecidableEq, Repr

/-- The mode the processor is in (rules R169, R180). -/
def State.mode (s : State) : Mode :=
  if s.crPE then (if s.flagVM then .virtual8086 else .protectedMode) else .realAddress

/-- The privilege level the instructions see: CPL, which is 3 in virtual-8086 mode (rule R25). -/
def State.privilege (s : State) : BitVec 2 :=
  if s.mode = .virtual8086 then 3#2 else s.cpl

/-- The default address size of the code segment: 32 when CS.D is 1, 16 when it is 0 and in real-address and
virtual-8086 mode (rule R84). -/
def State.defaultAddrSize (s : State) : AddrSize :=
  if s.mode = .protectedMode ∧ s.cs.d = true then .a32 else .a16

/-- The "32-bit mode" of the IP and DP fields (rule R102). -/
def State.mode32 (s : State) : Bool :=
  s.crPE && !s.flagVM && s.cs.d

/-- Alignment checking is enabled: CR0.AM = 1, EFLAGS.AC = 1 and privilege level 3, outside real-address mode
(rules R66, R165). -/
def State.alignmentCheckOn (s : State) : Bool :=
  s.mode != .realAddress && s.crAM && s.flagAC && s.privilege == 3#2

/-! ## The part -/

/-- `HasFastSyscall`, the CPUID qualification of rule R150. -/
def hasFastSyscall (p : Params) : Bool :=
  p.cpuidSep && !(p.family == 6 && p.model < 3 && p.stepping < 3) && !(p.family == 6 && p.model == 1)

/-! ## The floating-point status, control and tag words -/

/-- TOS, bits 13:11 of FSW (rule R33). -/
def tosOf (fsw : Half) : BitVec 3 := fsw.extractLsb' 11 3

/-- The FTW code Valid (rule R34). -/
def tagValid : BitVec 2 := 0b00#2

/-- The FTW code Zero (rule R34). -/
def tagZero : BitVec 2 := 0b01#2

/-- The FTW code Special (rule R34). -/
def tagSpecial : BitVec 2 := 0b10#2

/-- The FTW code Empty (rule R34). -/
def tagEmpty : BitVec 2 := 0b11#2

/-- The exponent of an 80-bit value, bits 78:64 (rule R39). -/
def exponentOf (v : Ext) : BitVec 15 := v.extractLsb' 64 15

/-- The J-bit of an 80-bit value, bit 63 (rule R39). -/
def jBit (v : Ext) : Bool := v.getLsbD 63

/-- The fraction of an 80-bit value, bits 62:0, the M-bit included (rules R39, R115). -/
def fractionOf (v : Ext) : BitVec 63 := v.extractLsb' 0 63

/-- `TagOf`, the class of an 80-bit value in the closed form of rule R115. -/
def tagOf (v : Ext) : BitVec 2 :=
  if exponentOf v = 0x7FFF#15 then tagSpecial
  else if exponentOf v = 0#15 then
    (if jBit v = false ∧ fractionOf v = 0#63 then tagZero else tagSpecial)
  else if jBit v = true then tagValid else tagSpecial

/-- The tag of physical register FRj, bits `2j+1:2j` of FTW (rule R34). -/
def tagAt (ftw : Half) (j : Nat) : BitVec 2 := ftw.extractLsb' (2 * j) 2

/-- One FTW valid bit: 0 for Empty, 1 otherwise (rule R112). -/
def validBit (ftw : Half) (j : Nat) : BitVec 1 := BitVec.ofBool (tagAt ftw j != tagEmpty)

/-- `AbridgedTag`, the eight valid bits, FR0 the least significant (rule R112). -/
def abridgedTag (ftw : Half) : Byte :=
  validBit ftw 7 ++ validBit ftw 6 ++ validBit ftw 5 ++ validBit ftw 4 ++
    validBit ftw 3 ++ validBit ftw 2 ++ validBit ftw 1 ++ validBit ftw 0

/-- The tag FXRSTOR gives a register: Empty where the valid bit is 0, else the class of the loaded value (rule R105). -/
def restoredTag (valid : Bool) (v : Ext) : BitVec 2 := if valid then tagOf v else tagEmpty

/-- The tag word FXRSTOR rebuilds from the valid bits and the loaded registers (rule R105). -/
def rebuiltFtw (valid : Byte) (fr : FpRegs) : Half :=
  restoredTag (valid.getLsbD 7) fr.fr7 ++ restoredTag (valid.getLsbD 6) fr.fr6 ++
    restoredTag (valid.getLsbD 5) fr.fr5 ++ restoredTag (valid.getLsbD 4) fr.fr4 ++
    restoredTag (valid.getLsbD 3) fr.fr3 ++ restoredTag (valid.getLsbD 2) fr.fr2 ++
    restoredTag (valid.getLsbD 1) fr.fr1 ++ restoredTag (valid.getLsbD 0) fr.fr0

/-- A floating-point exception is pending and unmasked: some flag of FSW bits 5:0 is set and its mask bit of FCW is
clear (rule R42). None of the four instructions acts on it (rules R107, R111, R171). -/
def State.fpExceptionPending (s : State) : Bool :=
  (s.fsw &&& ~~~s.fcw).extractLsb' 0 6 != 0#6

end Sys2Proof.Machine
end

