-- ==== Sys2Proof/Machine/Ops.lean ====
section
/-! DEFINITION. The named operations over registers and memory that the meanings share, raising an exception
among them (rules R9, R172 to R177). -/

namespace Sys2Proof.Machine

/-! ## Raising an exception -/

/-- The error code the source prints after the exception's name, if any (rules R160, R172). -/
def Fault.errorCode : Fault → Option Nat
  | .generalProtection _ => some 0
  | .stackSegment _ => some 0
  | .pageFault code _ => some code
  | .deviceNotAvailable _ => none
  | .alignmentCheck _ => some 0
  | .invalidOpcode _ => none
  | .interrupt13 _ => none

/-- The vector number (rule R160; all but 13 from general knowledge). -/
def Fault.vector : Fault → Nat
  | .generalProtection _ => 13
  | .stackSegment _ => 12
  | .pageFault _ _ => 14
  | .deviceNotAvailable _ => 7
  | .alignmentCheck _ => 17
  | .invalidOpcode _ => 6
  | .interrupt13 _ => 13

/-- The `pc` of the faulting instruction (rules R173, R177). -/
def Fault.pc : Fault → Word
  | .generalProtection pc => pc
  | .stackSegment pc => pc
  | .pageFault _ pc => pc
  | .deviceNotAvailable pc => pc
  | .alignmentCheck pc => pc
  | .invalidOpcode pc => pc
  | .interrupt13 pc => pc

/-- `raise`: the run ends with the exception and the unchanged `pc` of the faulting instruction; no handler is
entered and nothing is saved (rules R176, R177). -/
def raise (exception : Word → Fault) (s : State) : Host.Outcome State Fault Refusal :=
  .fault (exception s.eip)

/-- `FaultChoice`: the one reported among the applicable exceptions `f :: fs`, by draw number `n` (rule R175). -/
def chooseFault (n : Nat) (f : Fault) (fs : List Fault) : Fault :=
  if fs.all (· == f) then f else (f :: fs).getD (Config.faultChoice n % (fs.length + 1)) f

/-- A step that ends without a next state. -/
inductive Stop where
  | fault (f : Fault)
  | refuse (r : Refusal)
  deriving DecidableEq, Repr

/-- The outcome a stop is. -/
def Stop.outcome : Stop → Host.Outcome State Fault Refusal
  | .fault f => .fault f
  | .refuse r => .refused r

/-! ## Registers -/

/-- `x[i]`, read of a general register (rules R9, R21). -/
def Regs.get (r : Regs) : GReg → Word
  | .eax => r.eax
  | .ecx => r.ecx
  | .edx => r.edx
  | .ebx => r.ebx
  | .esp => r.esp
  | .ebp => r.ebp
  | .esi => r.esi
  | .edi => r.edi

/-- The low 16 bits of a general register: AX, CX, DX, BX, SP, BP, SI, DI (rule R21). -/
def Regs.low16 (r : Regs) (g : GReg) : Half := (r.get g).setWidth 16

/-- The physical register FRj (rule R38). -/
def FpRegs.get (f : FpRegs) (j : BitVec 3) : Ext :=
  match j.toNat with
  | 0 => f.fr0
  | 1 => f.fr1
  | 2 => f.fr2
  | 3 => f.fr3
  | 4 => f.fr4
  | 5 => f.fr5
  | 6 => f.fr6
  | _ => f.fr7

/-- The register file with `f j` in FRj. -/
def FpRegs.ofFn (f : BitVec 3 → Ext) : FpRegs where
  fr0 := f 0
  fr1 := f 1
  fr2 := f 2
  fr3 := f 3
  fr4 := f 4
  fr5 := f 5
  fr6 := f 6
  fr7 := f 7

/-- ST(i), the physical register `FR[(TOS + i) mod 8]` (rule R38); the sum of 3-bit numbers is modulo 8. -/
def State.st (s : State) (i : BitVec 3) : Ext := s.fr.get (tosOf s.fsw + i)

/-- MMj, bits 63:0 of FRj (rule R41): a view, stored once in `fr`. -/
def State.mm (s : State) (j : BitVec 3) : BitVec 64 := (s.fr.get j).setWidth 64

/-- A segment register by name (rule R26). -/
def State.seg (s : State) : SegName → SegReg
  | .cs => s.cs
  | .ss => s.ss
  | .ds => s.ds
  | .es => s.es
  | .fs => s.fs
  | .gs => s.gs

/-- The three registers of the Fast System Call facility (rule R30). -/
inductive Msr where
  | sysenterCs | sysenterEsp | sysenterEip
  deriving DecidableEq, Repr

/-- The address of a model-specific register (rule R30). -/
def Msr.address : Msr → Nat
  | .sysenterCs => 0x174
  | .sysenterEsp => 0x175
  | .sysenterEip => 0x176

/-- The content of a model-specific register. -/
def State.msr (s : State) : Msr → MsrWord
  | .sysenterCs => s.sysenterCs
  | .sysenterEsp => s.sysenterEsp
  | .sysenterEip => s.sysenterEip

/-- A selector with its RPL, bits 1:0, replaced (rules R27, R131, R140). -/
def withRpl (sel : Half) (rpl : BitVec 2) : Half := sel.extractLsb' 2 14 ++ rpl

/-- The flat 32-bit code segment that SYSENTER and SYSEXIT load (rules R28, R133, R142). -/
def flatCode (sel : Half) (dpl : BitVec 2) : SegReg where
  sel := sel
  base := 0
  effLimit := 0xFFFFFFFF
  g := true
  s := true
  typ := 0b1011
  d := true
  dpl := dpl
  p := true

/-- The flat 32-bit stack segment that SYSENTER and SYSEXIT load (rules R28, R134, R143). -/
def flatStack (sel : Half) (dpl : BitVec 2) : SegReg where
  sel := sel
  base := 0
  effLimit := 0xFFFFFFFF
  g := true
  s := true
  typ := 0b0011
  d := true
  dpl := dpl
  p := true

/-- The values of SYSENTER_CS_MSR that rule R139 settles, for the largest number the instruction adds to it: not 1 to 3,
no bit above 15, and no selector sum above FFFFh. -/
def selectorSettled (msr : MsrWord) (largestSum : Nat) : Bool :=
  4 ≤ msr.toNat && msr.toNat + largestSum ≤ 0xFFFF

/-- `pc + length`, refused and not wrapped at 2^32 (rules R14, R22). -/
def nextPc (s : State) (length : Nat) : Option Word :=
  if s.eip.toNat + length < 2 ^ 32 then some (s.eip + BitVec.ofNat 32 length) else none

/-! ## Sorted tables -/

/-- The entry of a key. -/
def lookup {α : Type} (key : Nat) : List (Nat × α) → Option α
  | [] => none
  | (k, v) :: rest => if key = k then some v else lookup key rest

/-- An entry in front, or nothing. -/
def consEntry {α : Type} (key : Nat) : Option α → List (Nat × α) → List (Nat × α)
  | some v, rest => (key, v) :: rest
  | none, rest => rest

/-- Sets the entry of a key, or removes it, in a table of strictly rising keys. -/
def setEntry {α : Type} (key : Nat) (v : Option α) : List (Nat × α) → List (Nat × α)
  | [] => consEntry key v []
  | (k, w) :: rest =>
    if key < k then consEntry key v ((k, w) :: rest)
    else if key = k then consEntry key v rest
    else (k, w) :: setEntry key v rest

/-- Puts an address into a strictly rising list of addresses. -/
def insertAddr (a : Nat) : List Nat → List Nat
  | [] => [a]
  | b :: rest => if a < b then a :: b :: rest else if a = b then b :: rest else b :: insertAddr a rest

/-- Strictly rising numbers. -/
def rising : List Nat → Bool
  | [] => true
  | a :: rest => rest.all (a < ·) && rising rest

/-! ## Memory -/

/-- The byte an open byte holds: the free values are constants without a body (rules R113, R116). -/
def OpenByte.value : OpenByte → Byte
  | .masked draw mask bits => (Config.freeByte draw &&& ~~~mask) ||| (bits &&& mask)
  | .either draw written kept => if Config.dsFieldKept draw then kept else written

/-- What FXSAVE puts into one byte of its destination. -/
inductive Stored where
  /-- A byte the spec gives. -/
  | byte (v : Byte)
  /-- A byte with free bits (rules R113, R116). -/
  | opened (o : OpenByte)
  /-- Nothing: the byte is not written (rule R113). -/
  | kept
  deriving DecidableEq, Repr

/-- What an address that memory does not list reads as (log entry 3). -/
def Memory.unlisted : Byte := 0

/-- The byte at an address (rules R61, R62). -/
def Memory.byte (m : Memory) (a : Nat) : Byte :=
  match lookup a m.opens with
  | some o => o.value
  | none => (lookup a m.cells).getD Memory.unlisted

/-- The bits of the byte at an address that `mask` selects; equal to `m.byte a &&& mask` (`Laws.peek_eq`), and
free of a draw where the selected bits are known. -/
def Memory.peek (m : Memory) (a : Nat) (mask : Byte) : Byte :=
  match lookup a m.opens with
  | some (.masked draw known bits) =>
    if mask &&& ~~~known = 0 then bits &&& mask else (OpenByte.masked draw known bits).value &&& mask
  | some o => o.value &&& mask
  | none => (lookup a m.cells).getD Memory.unlisted &&& mask

/-- Stores one byte and keeps the canonical form. -/
def Memory.store (m : Memory) (a : Nat) : Stored → Memory
  | .byte v =>
    { cells := setEntry a (if v = Memory.unlisted then none else some v) m.cells
      opens := setEntry a none m.opens }
  | .opened o =>
    { cells := setEntry a none m.cells
      opens := setEntry a (some o) m.opens }
  | .kept => m

/-- Stores `image 0` to `image (n-1)` at the addresses `addr 0` to `addr (n-1)`, the last one first. -/
def Memory.storeFirst (addr : Nat → Nat) (image : Nat → Stored) : Nat → Memory → Memory
  | 0, m => m
  | n + 1, m => Memory.storeFirst addr image n (m.store (addr n) (image n))

/-- The little-endian value of the `n` bytes at `addr lo` to `addr (lo+n-1)` (rules R7, R63). -/
def Memory.field (m : Memory) (addr : Nat → Nat) (lo : Nat) : Nat → Nat
  | 0 => 0
  | n + 1 => (m.byte (addr lo)).toNat + 256 * Memory.field m addr (lo + 1) n

/-- The canonical form of memory: addresses strictly rising, no listed byte 0, no address listed twice. -/
def Memory.wf (m : Memory) : Bool :=
  rising (m.cells.map Prod.fst) && rising (m.opens.map Prod.fst) &&
    m.cells.all (fun c => c.2 != Memory.unlisted) &&
    m.opens.all (fun o => (lookup o.1 m.cells).isNone)

/-- Byte `k` of a value, byte 0 the least significant (rules R7, R63). -/
def byteOf {w : Nat} (v : BitVec w) (k : Nat) : Byte := v.extractLsb' (8 * k) 8

end Sys2Proof.Machine
end

