-- ==== Sys2Proof/Machine/FastSystemCall.lean ====
section
/-! DEFINITION. SYSENTER and SYSEXIT (`41_fast_system_call.md`). -/

namespace Sys2Proof.Machine

/-- The zero test of SYSENTER_CS_MSR, on its low `MSRW` bits (rules R131, R139, decision D18). -/
def csMsrZero (s : State) : Bool := s.sysenterCs.setWidth Config.msrw == 0

/-- A model-specific register above FFFFFFFFh (rule R139). -/
def above32 (msr : MsrWord) : Bool := msr.toNat > 0xFFFFFFFF

/-! ## SYSENTER -/

/-- The ring 0 code selector: the low 16 bits of SYSENTER_CS_MSR with RPL 0 (rule R133). -/
def kernelCodeSelector (s : State) : Half := withRpl (s.sysenterCs.setWidth 16) 0

/-- The ring 0 stack selector: the new CS selector plus 8, with RPL 0 (rule R134). -/
def kernelStackSelector (s : State) : Half := withRpl (kernelCodeSelector s + 8) 0

/-- The state after SYSENTER (rule R131). -/
def sysenterNext (s : State) : State :=
  { s with
    eflags := clearVmIf s.eflags
    cs := flatCode (kernelCodeSelector s) 0
    cpl := 0
    ss := flatStack (kernelStackSelector s) 0
    regs := { s.regs with esp := s.sysenterEsp.setWidth 32 }
    eip := s.sysenterEip.setWidth 32
    fpPrevNoMem := false }

/-- SYSENTER (rule R131): the exceptions of rule R132, the refusals of rules R139 and R151, then the transfer. -/
def execSysenter (s : State) : Host.Outcome State Fault Refusal :=
  if !hasFastSyscall s.params then .refused .fastSyscallAbsent
  else if !s.crPE then raise .generalProtection s
  else if csMsrZero s then raise .generalProtection s
  else if !selectorSettled s.sysenterCs 8 then .refused .selectorNotSettled
  else if above32 s.sysenterEsp || above32 s.sysenterEip then .refused .msrAbove32Bits
  else .next (sysenterNext s)

/-! ## SYSEXIT -/

/-- The ring 3 code selector: SYSENTER_CS_MSR plus 16 with RPL 3 (rule R142). -/
def userCodeSelector (s : State) : Half := withRpl (s.sysenterCs.setWidth 16 + 16) 3

/-- The ring 3 stack selector: SYSENTER_CS_MSR plus 24 with RPL 3 (rule R143). -/
def userStackSelector (s : State) : Half := withRpl (s.sysenterCs.setWidth 16 + 24) 3

/-- The state after SYSEXIT (rule R140). -/
def sysexitNext (s : State) : State :=
  { s with
    cs := flatCode (userCodeSelector s) 3
    ss := flatStack (userStackSelector s) 3
    cpl := 3
    regs := { s.regs with esp := s.regs.ecx }
    eip := s.regs.edx
    fpPrevNoMem := false }

/-- SYSEXIT (rule R140): the exceptions of rule R141, the refusals of rules R139 and R151, then the transfer. CPL is 3
in virtual-8086 mode (rule R148). -/
def execSysexit (s : State) : Host.Outcome State Fault Refusal :=
  if !hasFastSyscall s.params then .refused .fastSyscallAbsent
  else if csMsrZero s then raise .generalProtection s
  else if !s.crPE then raise .generalProtection s
  else if s.privilege != 0#2 then raise .generalProtection s
  else if !selectorSettled s.sysenterCs 24 then .refused .selectorNotSettled
  else .next (sysexitNext s)

end Sys2Proof.Machine
end

