-- ==== Sys2Proof/Machine/Operands.lean ====
section
/-! DEFINITION. The memory operand of FXSAVE and FXRSTOR: segment and offset (rules R84 to R89), linear and
physical addresses (rules R61, R71), and the checks of rule R64. -/

namespace Sys2Proof.Machine

/-! ## Effective address -/

/-- The displacement of 32-bit addressing, `disp8` sign-extended (rules R85, R88). -/
def dispValue32 : Disp32 → Word
  | .absent => 0
  | .d8 b => b.signExtend 32
  | .d32 w => w

/-- The displacement of 16-bit addressing, `disp8` sign-extended (rules R85, R89). -/
def dispValue16 : Disp16 → Half
  | .absent => 0
  | .d8 b => b.signExtend 16
  | .d16 h => h

/-- `2^scale` (rule R88). -/
def scaleFactor : Scale → Word
  | .x1 => 1
  | .x2 => 2
  | .x4 => 4
  | .x8 => 8

/-- The scaled index `I` of the SIB form, 0 without index (rule R88). -/
def scaledIndex (r : Regs) (scale : Scale) : Option GReg → Word
  | none => 0
  | some g => r.get g * scaleFactor scale

/-- The base sum of 16-bit addressing, modulo 2^16 (rule R89). -/
def baseSum16 (r : Regs) : Base16 → Half
  | .bxsi => r.low16 .ebx + r.low16 .esi
  | .bxdi => r.low16 .ebx + r.low16 .edi
  | .bpsi => r.low16 .ebp + r.low16 .esi
  | .bpdi => r.low16 .ebp + r.low16 .edi
  | .si => r.low16 .esi
  | .di => r.low16 .edi
  | .bp => r.low16 .ebp
  | .bx => r.low16 .ebx

/-- The effective address `off`, sums modulo 2^32 in 32-bit addressing and modulo 2^16, zero-extended, in 16-bit
addressing (rules R87 to R89). -/
def effectiveAddress (r : Regs) : MemOp → Word
  | .based32 base disp => r.get base + dispValue32 disp
  | .absolute32 w => w
  | .sib scale index base disp => r.get base + scaledIndex r scale index + dispValue32 disp
  | .sibAbsolute scale index w => w + scaledIndex r scale index
  | .based16 base disp => (baseSum16 r base + dispValue16 disp).setWidth 32
  | .absolute16 h => h.setWidth 32

/-- The default segment of a 32-bit base register: SS for ESP and EBP (rules R86, R88). -/
def baseSegment32 : GReg → SegName
  | .esp => .ss
  | .ebp => .ss
  | _ => .ds

/-- The default segment of a 16-bit base sum: SS where BP takes part (rules R86, R89). -/
def baseSegment16 : Base16 → SegName
  | .bpsi => .ss
  | .bpdi => .ss
  | .bp => .ss
  | _ => .ds

/-- The default segment of an operand (rules R86, R88, R89). -/
def defaultSegment : MemOp → SegName
  | .based32 base _ => baseSegment32 base
  | .absolute32 _ => .ds
  | .sib _ _ base _ => baseSegment32 base
  | .sibAbsolute _ _ _ => .ds
  | .based16 base _ => baseSegment16 base
  | .absolute16 _ => .ds

/-- The segment overrides among the prefixes, in order. -/
def overrides : List Prefix → List SegName
  | [] => []
  | .segment x :: rest => x :: overrides rest
  | _ :: rest => overrides rest

/-- The segment of the operand: the override replaces the default (rule R86). Of several different overrides
a free choice takes effect (log entry 14). -/
def operandSegment (s : State) (pre : List Prefix) (op : MemOp) : SegName :=
  match overrides pre with
  | [] => defaultSegment op
  | x :: rest =>
    if rest.all (· == x) then x
    else (x :: rest).getD (Config.overrideChoice s.draws % (rest.length + 1)) x

/-- The offset of the operand in its segment. -/
def operandOffset (s : State) (op : MemOp) : Word := effectiveAddress s.regs op

/-! ## Linear and physical addresses -/

/-- The linear address of byte `i` of an operand or of an instruction at `off`: base plus offset, 32 bits wide (rule
R61; modulo 2^32, log entry 12). -/
def linearAddress (r : SegReg) (off : Word) (i : Nat) : Word := r.base + off + BitVec.ofNat 32 i

/-- A row of the `Translate` table covers an access. -/
def pageRuleCovers (r : PageRule) (linear : Word) (write : Bool) (cpl : BitVec 2) : Bool :=
  r.first.toNat ≤ linear.toNat && linear.toNat ≤ r.last.toNat && r.write == write && r.cpl == cpl

/-- What a covering row answers. -/
def pageRuleAnswer (r : PageRule) (linear : Word) : PageResult :=
  match r.result with
  | .to phys => .to (phys + (linear - r.first))
  | .fault code => .fault code

/-- `Translate` (rule R71): the first covering row of the table, the identity where none covers; real-address mode has
no paging. -/
def translateLinear (s : State) (linear : Word) (write : Bool) : PageResult :=
  if s.mode = .realAddress then .to linear
  else
    match s.params.pageRules.find? (fun r => pageRuleCovers r linear write s.privilege) with
    | some r => pageRuleAnswer r linear
    | none => .to linear

/-- The physical address of byte `i` of an operand whose checks passed. -/
def physicalAddress (s : State) (seg : SegName) (off : Word) (write : Bool) (i : Nat) : Nat :=
  match translateLinear s (linearAddress (s.seg seg) off i) write with
  | .to phys => phys.toNat
  | .fault _ => (linearAddress (s.seg seg) off i).toNat

/-! ## The checks of rule R64 -/

/-- The size of the operand (rule R72). -/
@[irreducible] def operandSize : Nat := 512

/-- A segment as SYSENTER or SYSEXIT load it, which `SegCheck` always passes (rule R70). -/
def flatAsLoaded (r : SegReg) : Bool :=
  r.effLimit == 0xFFFFFFFF#32 && r.base == 0#32 && (r.typ == 0b1011#4 || r.typ == 0b0011#4)

/-- A row of the `SegCheck` table covers an operand. -/
def segRuleCovers (r : SegRule) (seg : SegName) (reg : SegReg) (off : Word) (write : Bool) : Bool :=
  r.seg == seg && r.reg == reg && r.first.toNat ≤ off.toNat && off.toNat ≤ r.last.toNat && r.write == write

/-- `SegCheck` for a 512-byte operand (rule R70): passed by a flat segment; else the first covering row of the table;
else every byte lies at or below `EffLimit` (log entry 6). -/
def segCheck (p : Params) (seg : SegName) (reg : SegReg) (off : Word) (write : Bool) : Bool :=
  if flatAsLoaded reg then true
  else
    match p.segRules.find? (fun r => segRuleCovers r seg reg off write) with
    | some r => r.ok
    | none => off.toNat + (operandSize - 1) ≤ reg.effLimit.toNat

/-- The operand does not start on a 16-byte boundary (rule R65). -/
def misaligned (r : SegReg) (off : Word) : Bool := (r.base.toNat + off.toNat) % 16 != 0

/-- The operand is outside its segment in protected mode (rules R67, R69). -/
def outsideSegment (s : State) (seg : SegName) (off : Word) (write : Bool) : Bool :=
  s.mode == .protectedMode &&
    (off.toNat > 0xFFFFFE00 || !segCheck s.params seg (s.seg seg) off write)

/-- The operand passes 0FFFFH in real-address or virtual-8086 mode (rule R68). -/
def outside64K (s : State) (off : Word) : Bool :=
  s.mode != .protectedMode && off.toNat + (operandSize - 1) > 0xFFFF

/-- The limit fault of a segment: #SS(0) for SS, #GP(0) for the other five (rules R67, R162). -/
def limitFault : SegName → Word → Fault
  | .ss => .stackSegment
  | _ => .generalProtection

/-- The page fault of byte `i` of the operand, if `Translate` faults there (rules R71, R163). -/
def pageFaultAt (s : State) (seg : SegName) (off : Word) (write : Bool) (i : Nat) : Option Fault :=
  match translateLinear s (linearAddress (s.seg seg) off i) write with
  | .to _ => none
  | .fault code => some (.pageFault code s.eip)

/-- A list of one fault if its condition holds. -/
def faultIf (c : Bool) (f : Fault) : List Fault := if c then [f] else []

/-- Every exception of FXSAVE or FXRSTOR whose condition holds (rules R64, R104, R114, R169), for an operand at `off` of
`seg`. -/
def applicableFaults (s : State) (pre : List Prefix) (seg : SegName) (off : Word) (write : Bool) : List Fault :=
  faultIf (pre.contains .lock) (.invalidOpcode s.eip) ++
  faultIf (s.crEM || s.crTS) (.deviceNotAvailable s.eip) ++
  faultIf (outsideSegment s seg off write) (limitFault seg s.eip) ++
  faultIf (outside64K s off) (.interrupt13 s.eip) ++
  faultIf (misaligned (s.seg seg) off) (.generalProtection s.eip) ++
  (List.range operandSize).filterMap (pageFaultAt s seg off write) ++
  faultIf (misaligned (s.seg seg) off && s.alignmentCheckOn) (.alignmentCheck s.eip)

/-- REP, REPNE or the operand-size override is present (rule R92). -/
def hasReservedPrefix (pre : List Prefix) : Bool :=
  pre.contains .rep || pre.contains .repne || pre.contains .operandSize

/-- What stops FXSAVE or FXRSTOR before its operation: first the situations without meaning (rules R92, R6, R65), then
an exception, one of those that apply (rule R175). -/
def fxStop (pre : List Prefix) (op : MemOp) (write : Bool) (s : State) : Option Stop :=
  if hasReservedPrefix pre then some (.refuse .reservedPrefix)
  else if !s.params.hasFxsr then some (.refuse .fxsrAbsent)
  else if (s.seg (operandSegment s pre op)).base.toNat % 16 != 0 then some (.refuse .segmentBaseUnaligned)
  else
    match applicableFaults s pre (operandSegment s pre op) (operandOffset s op) write with
    | f :: fs => some (.fault (chooseFault s.draws f fs))
    | [] => none

end Sys2Proof.Machine
end

