-- ==== Sys2Proof/Machine/FpSaveRestore.lean ====
section
/-! DEFINITION. FXRSTOR and FXSAVE (`40_fp_state_save_restore.md`): the 512-byte image of rule R100, its
loading (rule R103) and its writing (rule R111). -/

namespace Sys2Proof.Machine

/-! ## FXRSTOR -/

/-- The 80-bit value in register slot `i` of the image, bytes `32+16i+9 : 32+16i` (rule R100). -/
def slotValue (m : Memory) (addr : Nat → Nat) (i : Nat) : Ext :=
  BitVec.ofNat 80 (m.field addr (32 + 16 * i) 10)

/-- FSW in the image (rule R100). -/
def imageFsw (m : Memory) (addr : Nat → Nat) : Half := BitVec.ofNat 16 (m.field addr 2 2)

/-- The register file FXRSTOR loads: slot `i` goes to `FR[(T + i) mod 8]`, T the TOS of the FSW in the image, so FRj
comes from slot `(j - T) mod 8` (rules R103, R105). -/
def imageRegs (m : Memory) (addr : Nat → Nat) : FpRegs :=
  FpRegs.ofFn fun j => slotValue m addr (j - tosOf (imageFsw m addr)).toNat

/-- FOP in the image, bits 10:0 of bytes 7:6; the upper five bits are ignored (rules R100, R108). -/
def imageFop (m : Memory) (addr : Nat → Nat) : BitVec 11 :=
  BitVec.ofNat 11 ((m.byte (addr 6)).toNat + 256 * (m.peek (addr 7) 0x07).toNat)

/-- An offset field of the image at byte `lo`: 32 bits in 32-bit mode; in 16-bit mode the low 16 bits, under a free
upper half by draw number `n` (rules R102, R103). -/
def imageOffset (s : State) (addr : Nat → Nat) (lo n : Nat) : Word :=
  if s.mode32 then BitVec.ofNat 32 (s.mem.field addr lo 4)
  else Config.freeHalf n ++ BitVec.ofNat 16 (s.mem.field addr lo 2)

/-- The state after FXRSTOR from the addresses `addr` (rule R103). -/
def fxrstorNext (s : State) (addr : Nat → Nat) (pc : Word) : State :=
  { s with
    fcw := BitVec.ofNat 16 (s.mem.field addr 0 2)
    fsw := imageFsw s.mem addr
    fop := imageFop s.mem addr
    fipOff := imageOffset s addr 8 s.draws
    fipSel := BitVec.ofNat 16 (s.mem.field addr 12 2)
    fdpOff := imageOffset s addr 16 (s.draws + 1)
    fdpSel := BitVec.ofNat 16 (s.mem.field addr 20 2)
    fr := imageRegs s.mem addr
    ftw := rebuiltFtw (s.mem.byte (addr 4)) (imageRegs s.mem addr)
    fpPrevNoMem := false
    eip := pc
    draws := s.draws + 2 }

/-- FXRSTOR (rule R103): the stops of `fxStop`, the refusal of an image whose byte 5 is not 0 (rule R106), then the
load. -/
def execFxrstor (pre : List Prefix) (op : MemOp) (s : State) : Host.Outcome State Fault Refusal :=
  match fxStop pre op false s with
  | some stop => stop.outcome
  | none =>
    if s.mem.byte (physicalAddress s (operandSegment s pre op) (operandOffset s op) false 5) = 0#8 then
      match nextPc s (Instr.fxrstor pre op).length with
      | some pc =>
        .next (fxrstorNext s (physicalAddress s (operandSegment s pre op) (operandOffset s op) false) pc)
      | none => .refused .pcPastTop
    else .refused .tagWordUpperByteNonzero

/-! ## FXSAVE -/

/-- A reserved byte of the image, a free value (rule R116). -/
def reservedByte (n : Nat) : Stored := .opened (.masked n 0 0)

/-- Byte `k` of an offset field of the image: the register's in 32-bit mode; in 16-bit mode the upper two bytes are
reserved (rules R101, R102). -/
def offsetByte (mode32 : Bool) (off : Word) (k n : Nat) : Stored :=
  if mode32 || k < 2 then .byte (byteOf off k) else reservedByte n

/-- A byte of the register rows, `b` counted from image byte 32: ten bytes of ST(i), then six reserved (rule R100). -/
def registerRowByte (s : State) (b n : Nat) : Stored :=
  if b % 16 < 10 then .byte (byteOf (s.st (BitVec.ofNat 3 (b / 16))) (b % 16)) else reservedByte n

/-- Byte `b` of the image FXSAVE writes at the addresses `addr` (rules R100, R111, R113, R116). -/
def fxsaveByte (s : State) (addr : Nat → Nat) (b : Nat) : Stored :=
  let n := s.draws + b
  if b < 2 then .byte (byteOf s.fcw b)
  else if b < 4 then .byte (byteOf s.fsw (b - 2))
  else if b = 4 then .byte (abridgedTag s.ftw)
  else if b = 5 then .byte 0#8
  else if b = 6 then .byte (byteOf s.fop 0)
  else if b = 7 then .opened (.masked n 0x07 (byteOf s.fop 1))
  else if b < 12 then offsetByte s.mode32 s.fipOff (b - 8) n
  else if b < 14 then .byte (byteOf s.fipSel (b - 12))
  else if b < 16 then reservedByte n
  else if b < 20 then
    (if s.fpPrevNoMem then .kept else offsetByte s.mode32 s.fdpOff (b - 16) n)
  else if b < 22 then
    (if s.fpPrevNoMem then
      .opened (.either (s.draws + 20) (byteOf s.fdpSel (b - 20)) (s.mem.byte (addr b)))
    else .byte (byteOf s.fdpSel (b - 20)))
  else if b < 32 then reservedByte n
  else if b < 160 then registerRowByte s (b - 32) n
  else reservedByte n

/-- The addresses among the first `n` of the image that FXSAVE writes, put into a list of addresses (rule R77). -/
def noteSaved (s : State) (addr : Nat → Nat) : Nat → List Nat → List Nat
  | 0, l => l
  | n + 1, l =>
    noteSaved s addr n (if fxsaveByte s addr n = .kept then l else insertAddr (addr n) l)

/-- The state after FXSAVE to the addresses `addr` (rules R111, R117): memory, and no register but `pc`. -/
def fxsaveNext (s : State) (addr : Nat → Nat) (pc : Word) : State :=
  { s with
    mem := s.mem.storeFirst addr (fxsaveByte s addr) operandSize
    savedBytes := noteSaved s addr operandSize s.savedBytes
    fpPrevNoMem := false
    eip := pc
    draws := s.draws + operandSize }

/-- FXSAVE (rule R111): the stops of `fxStop`, then the save. -/
def execFxsave (pre : List Prefix) (op : MemOp) (s : State) : Host.Outcome State Fault Refusal :=
  match fxStop pre op true s with
  | some stop => stop.outcome
  | none =>
    match nextPc s (Instr.fxsave pre op).length with
    | some pc =>
      .next (fxsaveNext s (physicalAddress s (operandSegment s pre op) (operandOffset s op) true) pc)
    | none => .refused .pcPastTop

end Sys2Proof.Machine
end

