-- ==== Sys2Proof/Machine/Fetch.lean ====
section
/-! DEFINITION. Fetching the bytes of an instruction from the code segment (rules R22, R60, R63, R71, R77, R97),
and placing bytes where they are fetched. -/

namespace Sys2Proof.Machine

/-- One instruction byte, or what stops the fetch of it. -/
inductive FetchedByte where
  | byte (b : Byte)
  | stop (why : Stop)
  deriving DecidableEq, Repr

/-- The instruction byte at an offset of the code segment: translated as a read (rule R71), refused where an FXSAVE of
this run wrote it (rule R77). -/
def fetchByte (s : State) (off : Nat) : FetchedByte :=
  match translateLinear s (linearAddress s.cs (BitVec.ofNat 32 off) 0) false with
  | .fault code => .stop (.fault (.pageFault code s.eip))
  | .to phys =>
    if s.savedBytes.contains phys.toNat then .stop (.refuse .fetchOfSavedByte)
    else .byte (s.mem.byte phys.toNat)

/-- How many bytes from `pc` on lie below 2^32 and inside the limit of CS (rule R22). -/
def codeRoom (s : State) : Nat := s.cs.effLimit.toNat + 1 - s.eip.toNat

/-- The bytes that can be fetched from an offset on, at most `room`. -/
def fetchBytes (s : State) : Nat → Nat → List Byte
  | 0, _ => []
  | room + 1, off =>
    match fetchByte s off with
    | .byte b => b :: fetchBytes s room (off + 1)
    | .stop _ => []

/-- Why no byte follows those of `fetchBytes`. -/
def fetchStop (s : State) : Nat → Nat → Stop
  | 0, _ => .refuse .codeOutsideLimit
  | room + 1, off =>
    match fetchByte s off with
    | .byte _ => fetchStop s room (off + 1)
    | .stop why => why

/-- The bytes the decoder reads: from `pc` to the end of what can be fetched. -/
def State.codeBytes (s : State) : List Byte := fetchBytes s (codeRoom s) s.eip.toNat

/-- The instruction at `pc` (rule R97), under the default address size (rule R84). -/
def State.decoded (s : State) : Decoded := decode s.defaultAddrSize s.codeBytes

/-- Stores one byte where the fetch reads offset `off`, as if no FXSAVE had written it. -/
def placeByte (s : State) (off : Nat) (b : Byte) : State :=
  match translateLinear s (linearAddress s.cs (BitVec.ofNat 32 off) 0) false with
  | .fault _ => s
  | .to phys =>
    { s with
      mem := s.mem.store phys.toNat (.byte b)
      savedBytes := s.savedBytes.filter (· != phys.toNat) }

/-- Stores bytes where the fetch reads them, from offset `off` on. -/
def placeBytes : State → Nat → List Byte → State
  | s, _, [] => s
  | s, off, b :: bs => placeBytes (placeByte s off b) (off + 1) bs

end Sys2Proof.Machine
end

