-- ==== Sys2Proof/Machine/Step.lean ====
section
/-! DEFINITION. One step: the instruction at `pc` is fetched, decoded and executed (rules R13, R97, R203). -/

namespace Sys2Proof.Machine

/-- One step of the one processor (rule R13). The meanings advance `pc` themselves, so the step adds nothing to
`exec`. -/
def step (s : State) : Host.Outcome State Fault Refusal :=
  match s.decoded with
  | .ok i _ => exec i s
  | .refused why => .refused (.undecodable why)
  | .truncated => (fetchStop s (codeRoom s) s.eip.toNat).outcome

/-- The state with a table word's instruction stored where `step` fetches its next instruction: at CS:EIP, 8 bytes,
the ones above the word 0. -/
def State.withFetchWord (s : State) (nbits w : Nat) : State := placeBytes s s.eip.toNat (tableBytes nbits w)

end Sys2Proof.Machine
end

