-- ==== Sys2Proof/Safety.lean ====
section
/-! DEFINITION. The terms in which claims speak of safe states and runs: the invariants of the state, how an
instruction lies in memory and names its operand, when an operand can be accessed, and runs without a fault. -/

namespace Sys2Proof

/-- How many SIB bytes an operand has (rules R81, R88). -/
def MemOp.sibLength : MemOp → Nat
  | .based32 _ _ => 0
  | .absolute32 _ => 0
  | .sib _ _ _ _ => 1
  | .sibAbsolute _ _ _ => 1
  | .based16 _ _ => 0
  | .absolute16 _ => 0

/-- How many displacement bytes an operand has (rules R81, R88, R89). -/
def MemOp.displacementLength : MemOp → Nat
  | .based32 _ .absent => 0
  | .based32 _ (.d8 _) => 1
  | .based32 _ (.d32 _) => 4
  | .absolute32 _ => 4
  | .sib _ _ _ .absent => 0
  | .sib _ _ _ (.d8 _) => 1
  | .sib _ _ _ (.d32 _) => 4
  | .sibAbsolute _ _ _ => 4
  | .based16 _ .absent => 0
  | .based16 _ (.d8 _) => 1
  | .based16 _ (.d16 _) => 2
  | .absolute16 _ => 2

end Sys2Proof

namespace Sys2Proof.Machine

/-- In virtual-8086 mode the stored CPL is 3 (rules R25, R180). -/
def State.ModeLegal (s : State) : Prop := s.mode = .virtual8086 → s.cpl = 3#2

/-- In protected mode the RPL of CS is CPL: what SYSENTER and SYSEXIT set up (rules R133, R142). -/
def State.CsMatchesCpl (s : State) : Prop :=
  s.mode = .protectedMode → s.cs.sel.extractLsb' 0 2 = s.cpl

/-- The invariant of the model: memory and the list of saved bytes keep their canonical forms, the mode is legal, and
CS agrees with CPL. -/
def State.Inv (s : State) : Prop :=
  s.mem.wf = true ∧ rising s.savedBytes = true ∧ s.ModeLegal ∧ s.CsMatchesCpl

/-- The linear address of byte `k` of the instruction at `pc` (rules R22, R61). -/
def instructionAddress (s : State) (k : Nat) : Word := linearAddress s.cs (BitVec.ofNat 32 (s.eip.toNat + k)) 0

/-- The fetch reads these bytes from `pc` on, inside the limit of CS (rules R22, R97). -/
def State.Fetches (s : State) (bytes : List Byte) : Prop :=
  bytes.length ≤ codeRoom s ∧
    ∀ (k : Nat) (h : k < bytes.length), fetchByte s (s.eip.toNat + k) = .byte (bytes[k])

/-- The term `I` of the SIB form for the register whose number is the index field: none for 100, the number of ESP (rule
R88). -/
def sibIndexTerm (s : State) (scale : BitVec 2) (index : GReg) : Word :=
  if index = .esp then 0 else s.regs.get index * BitVec.ofNat 32 (2 ^ scale.toNat)

/-- A ModR/M byte with these `mod` and `rm` fields and the bytes after it name, for FXSAVE and FXRSTOR alike, an operand of
this default segment and offset, wherever default and prefixes give this address size (rules R82, R84, R87). -/
def NamesOperand (s : State) (size : AddrSize) (mod : BitVec 2) (rm : BitVec 3) (tail : List Byte) (seg : SegName)
    (off : Word) : Prop :=
  ∀ (dflt : AddrSize) (pre : List Prefix) (rest : List Byte),
    dflt = (if Prefix.addressSize ∈ pre then size.other else size) →
    ∃ op,
      decode dflt (pre.map Prefix.byte ++ 0x0F#8 :: 0xAE#8 :: (mod ++ 0#3 ++ rm) :: (tail ++ rest)) =
        .ok (.fxsave pre op) rest ∧
      decode dflt (pre.map Prefix.byte ++ 0x0F#8 :: 0xAE#8 :: (mod ++ 1#3 ++ rm) :: (tail ++ rest)) =
        .ok (.fxrstor pre op) rest ∧
      defaultSegment op = seg ∧ operandOffset s op = off

/-- FXSAVE (`write`) or FXRSTOR may access its operand: what software must provide (rule R195) and the checks of rule R64
ask, each written out. -/
def OperandAccessible (s : State) (pre : List Prefix) (op : MemOp) (write : Bool) : Prop :=
  s.params.hasFxsr = true ∧
  Prefix.rep ∉ pre ∧ Prefix.repne ∉ pre ∧ Prefix.operandSize ∉ pre ∧ Prefix.lock ∉ pre ∧
  s.crEM = false ∧ s.crTS = false ∧
  (s.seg (operandSegment s pre op)).base.toNat % 16 = 0 ∧
  (operandOffset s op).toNat % 16 = 0 ∧
  (s.mode = .protectedMode →
    (operandOffset s op).toNat ≤ 0xFFFFFE00 ∧
    segCheck s.params (operandSegment s pre op) (s.seg (operandSegment s pre op)) (operandOffset s op) write = true) ∧
  (s.mode ≠ .protectedMode → (operandOffset s op).toNat + 511 ≤ 0xFFFF) ∧
  ∀ i < 512, ∃ phys,
    translateLinear s (linearAddress (s.seg (operandSegment s pre op)) (operandOffset s op) i) write = .to phys

/-- The physical address of byte `i` of the operand of FXSAVE (`write`) or FXRSTOR: the expression the meanings use. -/
def operandAddress (s : State) (pre : List Prefix) (op : MemOp) (write : Bool) (i : Nat) : Nat :=
  physicalAddress s (operandSegment s pre op) (operandOffset s op) write i

/-- The 512 bytes of the operand have 512 different physical addresses. -/
def OperandUnaliased (s : State) (pre : List Prefix) (op : MemOp) (write : Bool) : Prop :=
  ∀ i < 512, ∀ j < 512, operandAddress s pre op write i = operandAddress s pre op write j → i = j

/-- `n` steps from `s` lead to `t`. -/
def RunsTo (n : Nat) (s t : State) : Prop := Host.Core.run Sys2Proof.core n s = .next t

/-- No fault within `n` steps. -/
def SafeRun (n : Nat) (s : State) : Prop := ∀ k ≤ n, ∀ f, Host.Core.run Sys2Proof.core k s ≠ .fault f

end Sys2Proof.Machine
end

