-- ==== Sys2Proof/Certificates/Slice0/Obligations.lean ====
section
/-! DEFINITION. The statements for the provers. Each docstring names the rule or the section of the spec it rests on. -/

open Sys2Proof Sys2Proof.Machine

/-! ## Decoding and encoding -/

/-- Decode reads back what encode writes, for every well-formed instruction, whatever follows (`30_encoding.md`). -/
def Obligations.DecodeOfEncode : Prop :=
  ∀ (dflt : AddrSize) (i : Instr) (rest : List Byte), i.wellFormed dflt = true →
    decode dflt (encode i ++ rest) = .ok i rest

/-- Encode writes back what decode has read, and decode answers well-formed instructions only (`30_encoding.md`). -/
def Obligations.EncodeOfDecode : Prop :=
  ∀ (dflt : AddrSize) (bytes : List Byte) (i : Instr) (rest : List Byte), decode dflt bytes = .ok i rest →
    encode i ++ rest = bytes ∧ i.wellFormed dflt = true

/-- The encodings that `95_test_vectors.md` V15, V40 and V50 write out decode to the instructions they stand for. -/
def Obligations.WrittenWordsDecode : Prop :=
  decode .a32 [0x0F, 0x34] = .ok .sysenter [] ∧
  decode .a32 [0x0F, 0x35] = .ok .sysexit [] ∧
  decode .a32 [0x0F, 0xAE, 0x00] = .ok (.fxsave [] (.based32 .eax .absent)) [] ∧
  decode .a32 [0x0F, 0xAE, 0x08] = .ok (.fxrstor [] (.based32 .eax .absent)) [] ∧
  decode .a32 [0x0F, 0xAE, 0x0C, 0x24] = .ok (.fxrstor [] (.sib .x1 none .esp .absent)) [] ∧
  decode .a32 [0x26, 0x0F, 0xAE, 0x07] = .ok (.fxsave [.segment .es] (.based32 .edi .absent)) [] ∧
  decode .a32 [0x67, 0x0F, 0xAE, 0x06, 0x00, 0x20] = .ok (.fxsave [.addressSize] (.absolute16 0x2000)) []

/-- SYSENTER and SYSEXIT are 2 bytes; FXSAVE and FXRSTOR are their prefixes, 3 bytes, one SIB byte exactly in the SIB forms and the
bytes of the displacement; and what the decoder takes off the bytes is the length (`30_encoding.md` sections 1, 2 and 6). -/
def Obligations.InstructionLengths : Prop :=
  Instr.sysenter.length = 2 ∧ Instr.sysexit.length = 2 ∧
  (∀ (pre : List Prefix) (op : MemOp),
    (Instr.fxsave pre op).length = pre.length + 3 + op.sibLength + op.displacementLength ∧
    (Instr.fxrstor pre op).length = pre.length + 3 + op.sibLength + op.displacementLength) ∧
  (∀ (dflt : AddrSize) (bytes : List Byte) (i : Instr) (rest : List Byte), decode dflt bytes = .ok i rest →
    bytes.length = i.length + rest.length)

/-- Any prefix before SYSENTER or SYSEXIT is refused (`30_encoding.md` section 3; the refusal is decision D16, log entry 22). -/
def Obligations.PrefixedFastCallsRefused : Prop :=
  ∀ (dflt : AddrSize) (p : Prefix) (pre : List Prefix) (rest : List Byte),
    decode dflt ((p :: pre).map Prefix.byte ++ 0x0F#8 :: 0x34#8 :: rest) = .refused .prefixNotDescribed ∧
    decode dflt ((p :: pre).map Prefix.byte ++ 0x0F#8 :: 0x35#8 :: rest) = .refused .prefixNotDescribed

/-- The encodings next to the four are refused by name: another first or second byte, the register form, another `reg` field
(`30_encoding.md` section 4; the refusals are decision D17, log entry 22). -/
def Obligations.NeighbouringEncodingsRefused : Prop :=
  ∀ (dflt : AddrSize) (pre : List Prefix) (rest : List Byte),
    (∀ b : Byte, prefixOf b = none → b ≠ 0x0F#8 →
      decode dflt (pre.map Prefix.byte ++ b :: rest) = .refused .firstByteNotDescribed) ∧
    (∀ b : Byte, b ≠ 0x34#8 → b ≠ 0x35#8 → b ≠ 0xAE#8 →
      decode dflt (pre.map Prefix.byte ++ 0x0F#8 :: b :: rest) = .refused .secondByteNotDescribed) ∧
    (∀ m : Byte, modOf m = 3#2 →
      decode dflt (pre.map Prefix.byte ++ 0x0F#8 :: 0xAE#8 :: m :: rest) = .refused .registerForm) ∧
    (∀ m : Byte, modOf m ≠ 3#2 → regOf m ≠ 0#3 → regOf m ≠ 1#3 →
      decode dflt (pre.map Prefix.byte ++ 0x0F#8 :: 0xAE#8 :: m :: rest) = .refused .regFieldNotDescribed)

/-! ## The step -/

/-- When the bytes at `pc` decode to an instruction, the step is that instruction's meaning: the meanings move `pc` themselves
(`30_encoding.md` section 6). -/
def Obligations.StepRunsDecodedInstruction : Prop :=
  ∀ (s : State) (i : Instr) (rest : List Byte), decode s.defaultAddrSize s.codeBytes = .ok i rest →
    step s = exec i s

/-- When the encoding of a well-formed instruction stands in memory where the fetch reads it, inside the limit of CS, the step
runs it (`30_encoding.md` sections 1 and 6, `10_state.md` section 2). -/
def Obligations.StepRunsInstructionInMemory : Prop :=
  ∀ (s : State) (i : Instr), i.wellFormed s.defaultAddrSize = true → i.length ≤ codeRoom s →
    (∀ (k : Nat) (h : k < (encode i).length), fetchByte s (s.eip.toNat + k) = .byte ((encode i)[k])) →
    step s = exec i s

/-- Bytes that begin an instruction without completing it make the step ask for one more byte. Where that byte, the first of the
instruction or a later one, lies above the limit of CS, the step is refused; where an FXSAVE of the run wrote it, the step is
refused; where the translation faults on it, the step raises #PF. Every proper beginning of an encoding is of this kind
(`10_state.md` section 2 decision D2, `20_memory.md` section 6 decision D10, `41_fast_system_call.md` section 4, log entry 13). -/
def Obligations.FetchStopsByName : Prop :=
  (∀ (s : State) (bytes : List Byte), s.Fetches bytes → decode s.defaultAddrSize bytes = .truncated →
    (s.cs.effLimit.toNat < s.eip.toNat + bytes.length → step s = .refused .codeOutsideLimit) ∧
    (s.eip.toNat + bytes.length ≤ s.cs.effLimit.toNat →
      (∀ phys, translateLinear s (instructionAddress s bytes.length) false = .to phys → phys.toNat ∈ s.savedBytes →
        step s = .refused .fetchOfSavedByte) ∧
      (∀ code, translateLinear s (instructionAddress s bytes.length) false = .fault code →
        step s = .fault (.pageFault code s.eip)))) ∧
  (∀ (dflt : AddrSize) (i : Instr) (k : Nat), i.wellFormed dflt = true → k < i.length →
    decode dflt ((encode i).take k) = .truncated)

/-! ## SYSENTER -/

/-- SYSENTER completes with protected mode on and settled MSRs, and loads CS, SS, CPL, ESP and EIP (rules R133, R134). -/
def Obligations.SysenterLoadsKernel : Prop :=
  ∀ s : State, hasFastSyscall s.params = true → s.crPE = true →
    4 ≤ s.sysenterCs.toNat → s.sysenterCs.toNat ≤ 0xFFF7 →
    s.sysenterEsp.toNat ≤ 0xFFFFFFFF → s.sysenterEip.toNat ≤ 0xFFFFFFFF →
    ∃ t, exec .sysenter s = .next t ∧
      t.cs.sel = s.sysenterCs.setWidth 16 &&& 0xFFFC#16 ∧ t.cs.sel.extractLsb' 0 2 = 0#2 ∧
      t.cs.base = 0#32 ∧ t.cs.effLimit = 0xFFFFFFFF#32 ∧ t.cs.g = true ∧ t.cs.s = true ∧
      t.cs.typ = 0b1011#4 ∧ t.cs.d = true ∧ t.cs.dpl = 0#2 ∧ t.cs.p = true ∧ t.cpl = 0#2 ∧
      t.ss.sel = t.cs.sel + 8#16 ∧ t.ss.sel.extractLsb' 0 2 = 0#2 ∧
      t.ss.base = 0#32 ∧ t.ss.effLimit = 0xFFFFFFFF#32 ∧ t.ss.g = true ∧ t.ss.s = true ∧
      t.ss.typ = 0b0011#4 ∧ t.ss.d = true ∧ t.ss.dpl = 0#2 ∧ t.ss.p = true ∧
      t.regs.esp.toNat = s.sysenterEsp.toNat ∧ t.eip.toNat = s.sysenterEip.toNat

/-- SYSENTER changes nothing but ESP, EIP, EFLAGS.VM and IF, CPL, CS, SS and the hidden bit `FpPrevNoMem`
(`10_state.md` section 8, `41_fast_system_call.md` section 2). -/
def Obligations.SysenterFrame : Prop :=
  ∀ s t : State, exec .sysenter s = .next t →
    (∀ r : GReg, r ≠ .esp → t.regs.get r = s.regs.get r) ∧
    (∀ n : Nat, n ≠ 9 → n ≠ 17 → t.eflags.getLsbD n = s.eflags.getLsbD n) ∧
    t.cr0 = s.cr0 ∧ t.ds = s.ds ∧ t.es = s.es ∧ t.fs = s.fs ∧ t.gs = s.gs ∧
    (∀ m : Msr, t.msr m = s.msr m) ∧
    t.fcw = s.fcw ∧ t.fsw = s.fsw ∧ t.ftw = s.ftw ∧ t.fop = s.fop ∧ t.fipOff = s.fipOff ∧ t.fipSel = s.fipSel ∧
    t.fdpOff = s.fdpOff ∧ t.fdpSel = s.fdpSel ∧ (∀ j, t.fr.get j = s.fr.get j) ∧
    (∀ a, t.mem.byte a = s.mem.byte a) ∧ t.savedBytes = s.savedBytes ∧ t.draws = s.draws ∧ t.params = s.params

/-- SYSENTER clears EFLAGS.VM and IF and no other flag, and along every run that follows the processor stays out of
virtual-8086 mode and IF stays clear: no instruction of the spec sets it again (rule R135). -/
def Obligations.SysenterMasksInterruptsForGood : Prop :=
  ∀ s t : State, exec .sysenter s = .next t →
    t.flagVM = false ∧ t.flagIF = false ∧
    (∀ n : Nat, n ≠ 9 → n ≠ 17 → t.eflags.getLsbD n = s.eflags.getLsbD n) ∧
    ∀ (n : Nat) (u : State), RunsTo n t u → u.mode ≠ .virtual8086 ∧ u.flagIF = false

/-- With settled MSRs SYSENTER executes in protected mode at every privilege level and in virtual-8086 mode, which it leaves, and
raises #GP(0) in real-address mode (rule R138). -/
def Obligations.SysenterModes : Prop :=
  ∀ s : State, hasFastSyscall s.params = true →
    4 ≤ s.sysenterCs.toNat → s.sysenterCs.toNat ≤ 0xFFF7 →
    s.sysenterEsp.toNat ≤ 0xFFFFFFFF → s.sysenterEip.toNat ≤ 0xFFFFFFFF →
    (s.mode = .protectedMode → ∃ t, exec .sysenter s = .next t ∧ t.mode = .protectedMode) ∧
    (s.mode = .virtual8086 → ∃ t, exec .sysenter s = .next t ∧ t.mode = .protectedMode) ∧
    (s.mode = .realAddress → exec .sysenter s = .fault (.generalProtection s.eip))

/-- SYSENTER raises #GP(0) exactly when CR0.PE is 0 or SYSENTER_CS_MSR holds zero in the bits read, and raises nothing else
(`41_fast_system_call.md` section 2; the zero test on 32 bits is decision D18, log entry 20). -/
def Obligations.SysenterFaults : Prop :=
  ∀ (s : State) (f : Fault), hasFastSyscall s.params = true →
    (exec .sysenter s = .fault f ↔
      (s.crPE = false ∨ s.sysenterCs.setWidth 32 = 0#32) ∧ f = .generalProtection s.eip)

/-! ## SYSEXIT -/

/-- SYSEXIT completes in protected mode at CPL 0 with a settled SYSENTER_CS_MSR, and loads CS, SS, CPL, ESP and EIP (rules R142,
R143). -/
def Obligations.SysexitLoadsUser : Prop :=
  ∀ s : State, hasFastSyscall s.params = true → s.mode = .protectedMode → s.cpl = 0#2 →
    4 ≤ s.sysenterCs.toNat → s.sysenterCs.toNat ≤ 0xFFE7 →
    ∃ t, exec .sysexit s = .next t ∧
      t.cs.sel = (s.sysenterCs.setWidth 16 + 16#16) ||| 3#16 ∧ t.cs.sel.extractLsb' 0 2 = 3#2 ∧
      t.cs.base = 0#32 ∧ t.cs.effLimit = 0xFFFFFFFF#32 ∧ t.cs.g = true ∧ t.cs.s = true ∧
      t.cs.typ = 0b1011#4 ∧ t.cs.d = true ∧ t.cs.dpl = 3#2 ∧ t.cs.p = true ∧
      t.ss.sel = (s.sysenterCs.setWidth 16 + 24#16) ||| 3#16 ∧ t.ss.sel.extractLsb' 0 2 = 3#2 ∧
      t.ss.base = 0#32 ∧ t.ss.effLimit = 0xFFFFFFFF#32 ∧ t.ss.g = true ∧ t.ss.s = true ∧
      t.ss.typ = 0b0011#4 ∧ t.ss.d = true ∧ t.ss.dpl = 3#2 ∧ t.ss.p = true ∧ t.cpl = 3#2 ∧
      t.regs.esp = s.regs.ecx ∧ t.eip = s.regs.edx

/-- SYSEXIT changes nothing but ESP, EIP, CPL, CS, SS and the hidden bit `FpPrevNoMem`; it writes no bit of EFLAGS
(`10_state.md` section 8, `41_fast_system_call.md` section 3). -/
def Obligations.SysexitFrame : Prop :=
  ∀ s t : State, exec .sysexit s = .next t →
    (∀ r : GReg, r ≠ .esp → t.regs.get r = s.regs.get r) ∧
    t.eflags = s.eflags ∧ t.cr0 = s.cr0 ∧ t.ds = s.ds ∧ t.es = s.es ∧ t.fs = s.fs ∧ t.gs = s.gs ∧
    (∀ m : Msr, t.msr m = s.msr m) ∧
    t.fcw = s.fcw ∧ t.fsw = s.fsw ∧ t.ftw = s.ftw ∧ t.fop = s.fop ∧ t.fipOff = s.fipOff ∧ t.fipSel = s.fipSel ∧
    t.fdpOff = s.fdpOff ∧ t.fdpSel = s.fdpSel ∧ (∀ j, t.fr.get j = s.fr.get j) ∧
    (∀ a, t.mem.byte a = s.mem.byte a) ∧ t.savedBytes = s.savedBytes ∧ t.draws = s.draws ∧ t.params = s.params

/-- SYSEXIT raises #GP(0), with error code 0 and the `pc` unchanged, exactly when SYSENTER_CS_MSR contains zero, CPL is nonzero or
protected mode is not enabled, and raises nothing else (rule R141). The premise keeps to MSR values of 32 bits, for which every
reading of "contains zero" agrees; the model's reading of wider values is in `FastCallsFaultUntilSetUp`. -/
def Obligations.SysexitFaults : Prop :=
  ∀ (s : State) (f : Fault), hasFastSyscall s.params = true → s.sysenterCs.toNat ≤ 0xFFFFFFFF →
    (exec .sysexit s = .fault f ↔
      (s.sysenterCs = 0#64 ∨ s.privilege ≠ 0#2 ∨ s.crPE = false) ∧ f = .generalProtection s.eip) ∧
    (exec .sysexit s = .fault f → f.errorCode = some 0 ∧ f.pc = s.eip)

/-- SYSEXIT in virtual-8086 mode raises #GP(0), whatever the stored CPL (`41_fast_system_call.md` section 3, derived there
from the privilege level 3 of that mode). -/
def Obligations.SysexitFaultsInVirtual8086 : Prop :=
  ∀ s : State, hasFastSyscall s.params = true → s.mode = .virtual8086 →
    exec .sysexit s = .fault (.generalProtection s.eip)

/-! ## Both instructions of the facility -/

/-- The four selectors of one SYSENTER_CS_MSR form a block 8 apart, without wrap-around: ring 0 code, ring 0 stack, ring 3 code and
stack with RPL 3 (`41_fast_system_call.md` section 3, derived there). -/
def Obligations.SelectorBlock : Prop :=
  ∀ s t u v : State, exec .sysenter s = .next t → exec .sysexit u = .next v → u.sysenterCs = s.sysenterCs →
    t.cs.sel.toNat = s.sysenterCs.toNat / 4 * 4 ∧
    t.ss.sel.toNat = t.cs.sel.toNat + 8 ∧
    v.cs.sel.toNat = t.cs.sel.toNat + 16 + 3 ∧
    v.ss.sel.toNat = t.cs.sel.toNat + 24 + 3

/-- A SYSENTER followed at once by a SYSEXIT comes to CPL 3 from whatever level, at the EIP of EDX with the ESP of ECX, and
restores neither IF nor VM nor ESP: they are no call and return pair (`41_fast_system_call.md` section 4). -/
def Obligations.FastCallsAreNoCallReturnPair : Prop :=
  ∀ s : State, hasFastSyscall s.params = true → s.crPE = true →
    4 ≤ s.sysenterCs.toNat → s.sysenterCs.toNat ≤ 0xFFE7 →
    s.sysenterEsp.toNat ≤ 0xFFFFFFFF → s.sysenterEip.toNat ≤ 0xFFFFFFFF →
    ∃ t u, exec .sysenter s = .next t ∧ exec .sysexit t = .next u ∧
      u.cpl = 3#2 ∧ u.eip = s.regs.edx ∧ u.regs.esp = s.regs.ecx ∧
      (∀ r : GReg, r ≠ .esp → u.regs.get r = s.regs.get r) ∧
      u.flagIF = false ∧ u.flagVM = false ∧ u.mem = s.mem

/-- The MSR values for which the source does not settle the result are refused: SYSENTER_CS_MSR 1 to 3, with a bit above 15, or
with a selector sum above FFFFh; the other two MSRs above FFFFFFFFh (`41_fast_system_call.md` section 2, decisions D18 and D19, log entry 20). -/
def Obligations.UnsettledMsrsRefused : Prop :=
  ∀ s : State, hasFastSyscall s.params = true → s.crPE = true → s.sysenterCs.setWidth 32 ≠ 0#32 →
    (s.sysenterCs.toNat < 4 ∨ 0xFFF7 < s.sysenterCs.toNat → exec .sysenter s = .refused .selectorNotSettled) ∧
    (4 ≤ s.sysenterCs.toNat → s.sysenterCs.toNat ≤ 0xFFF7 →
      0xFFFFFFFF < s.sysenterEsp.toNat ∨ 0xFFFFFFFF < s.sysenterEip.toNat →
      exec .sysenter s = .refused .msrAbove32Bits) ∧
    (s.privilege = 0#2 → s.sysenterCs.toNat < 4 ∨ 0xFFE7 < s.sysenterCs.toNat →
      exec .sysexit s = .refused .selectorNotSettled)

/-- SYSENTER and SYSEXIT neither read nor write memory, the data segments or the floating-point state, environment and registers: with
other contents there, they answer the same and leave those contents alone (`41_fast_system_call.md` sections 1 to 3,
`20_memory.md` section 1). -/
def Obligations.FastCallsIgnoreMemoryAndFpState : Prop :=
  ∀ (i : Instr) (s : State) (m : Memory) (ds es fs gs : SegReg) (fcw fsw ftw : Half) (fop : BitVec 11)
    (fipOff : Word) (fipSel : Half) (fdpOff : Word) (fdpSel : Half) (fr : FpRegs),
    i = .sysenter ∨ i = .sysexit →
    exec i { s with
        mem := m, ds := ds, es := es, fs := fs, gs := gs, fcw := fcw, fsw := fsw, ftw := ftw, fop := fop
        fipOff := fipOff, fipSel := fipSel, fdpOff := fdpOff, fdpSel := fdpSel, fr := fr } =
      match exec i s with
      | .next t =>
        .next { t with
          mem := m, ds := ds, es := es, fs := fs, gs := gs, fcw := fcw, fsw := fsw, ftw := ftw, fop := fop
          fipOff := fipOff, fipSel := fipSel, fdpOff := fdpOff, fdpSel := fdpSel, fr := fr }
      | .fault f => .fault f
      | .refused r => .refused r

/-- The facility is present when the CPUID qualification and the Pentium Pro sentence both allow it. That it is absent when either says
so is a choice, the resolution of conflict C11 (`41_fast_system_call.md` section 4, `90_conflicts.md` C11, log entry 21). -/
def Obligations.FastSyscallPresence : Prop :=
  ∀ p : Params, hasFastSyscall p = true ↔
    p.cpuidSep = true ∧ ¬(p.family = 6 ∧ p.model < 3 ∧ p.stepping < 3) ∧ ¬(p.family = 6 ∧ p.model = 1)

/-- Where the part lacks an instruction it is refused and raises nothing (`41_fast_system_call.md` section 4 decision D22,
`00_scope.md` section 4 decision D23). -/
def Obligations.AbsentInstructionsRefused : Prop :=
  (∀ s : State, hasFastSyscall s.params = false →
    exec .sysenter s = .refused .fastSyscallAbsent ∧ exec .sysexit s = .refused .fastSyscallAbsent) ∧
  (∀ (s : State) (pre : List Prefix) (op : MemOp), s.params.hasFxsr = false → hasReservedPrefix pre = false →
    exec (.fxsave pre op) s = .refused .fxsrAbsent ∧ exec (.fxrstor pre op) s = .refused .fxsrAbsent)

/-- FXSAVE and FXRSTOR are refused by name under REP, REPNE or the operand-size override; through a segment whose base is not a
multiple of 16; and where `pc + length` of an otherwise complete instruction reaches 2^32 (`30_encoding.md` section 3 decision D16,
`20_memory.md` section 3 decision D7, `10_state.md` section 2 decision D2). -/
def Obligations.UnsettledOperandFormsRefused : Prop :=
  ∀ (s : State) (pre : List Prefix) (op : MemOp),
    (Prefix.rep ∈ pre ∨ Prefix.repne ∈ pre ∨ Prefix.operandSize ∈ pre →
      exec (.fxsave pre op) s = .refused .reservedPrefix ∧ exec (.fxrstor pre op) s = .refused .reservedPrefix) ∧
    (Prefix.rep ∉ pre → Prefix.repne ∉ pre → Prefix.operandSize ∉ pre → s.params.hasFxsr = true →
      (s.seg (operandSegment s pre op)).base.toNat % 16 ≠ 0 →
      exec (.fxsave pre op) s = .refused .segmentBaseUnaligned ∧
      exec (.fxrstor pre op) s = .refused .segmentBaseUnaligned) ∧
    (OperandAccessible s pre op true → 2 ^ 32 ≤ s.eip.toNat + (Instr.fxsave pre op).length →
      exec (.fxsave pre op) s = .refused .pcPastTop) ∧
    (OperandAccessible s pre op false → s.mem.byte (operandAddress s pre op false 5) = 0#8 →
      2 ^ 32 ≤ s.eip.toNat + (Instr.fxrstor pre op).length →
      exec (.fxrstor pre op) s = .refused .pcPastTop)

/-! ## FXSAVE -/

/-- FXSAVE completes on every operand it may access, and where the 512 physical addresses differ the memory holds the image of the
FP or MMX state: each defined field at its bytes, byte 5 zero, DP left alone after an FP instruction without memory operand
(`40_fp_state_save_restore.md` sections 1 and 3). Choices of the spec: what makes the image one of 32-bit mode (decision D14) and DS
after such an instruction (decision D15, both log entry 18). -/
def Obligations.FxsaveWritesImage : Prop :=
  ∀ (s : State) (pre : List Prefix) (op : MemOp), OperandAccessible s pre op true →
    s.eip.toNat + (Instr.fxsave pre op).length < 2 ^ 32 →
    ∃ t, exec (.fxsave pre op) s = .next t ∧
      t.eip.toNat = s.eip.toNat + (Instr.fxsave pre op).length ∧
      (s.mem.wf = true → OperandUnaliased s pre op true →
        t.mem.field (operandAddress s pre op true) 0 2 = s.fcw.toNat ∧
        t.mem.field (operandAddress s pre op true) 2 2 = s.fsw.toNat ∧
        t.mem.byte (operandAddress s pre op true 4) = abridgedTag s.ftw ∧
        t.mem.byte (operandAddress s pre op true 5) = 0#8 ∧
        t.mem.field (operandAddress s pre op true) 6 2 % 2048 = s.fop.toNat ∧
        t.mem.field (operandAddress s pre op true) 8 2 = s.fipOff.toNat % 65536 ∧
        (s.mode32 = true → t.mem.field (operandAddress s pre op true) 8 4 = s.fipOff.toNat) ∧
        t.mem.field (operandAddress s pre op true) 12 2 = s.fipSel.toNat ∧
        (s.fpPrevNoMem = false →
          t.mem.field (operandAddress s pre op true) 16 2 = s.fdpOff.toNat % 65536 ∧
          (s.mode32 = true → t.mem.field (operandAddress s pre op true) 16 4 = s.fdpOff.toNat) ∧
          t.mem.field (operandAddress s pre op true) 20 2 = s.fdpSel.toNat) ∧
        (s.fpPrevNoMem = true →
          t.mem.field (operandAddress s pre op true) 16 4 = s.mem.field (operandAddress s pre op true) 16 4 ∧
          (t.mem.field (operandAddress s pre op true) 20 2 = s.fdpSel.toNat ∨
            t.mem.field (operandAddress s pre op true) 20 2 = s.mem.field (operandAddress s pre op true) 20 2)) ∧
        ∀ i : BitVec 3,
          t.mem.field (operandAddress s pre op true) (32 + 16 * i.toNat) 10 = (s.st i).toNat)

/-- FXSAVE retains the FP and MMX state and changes no register but EIP (and the hidden bit `FpPrevNoMem`); it leaves every byte
of memory alone but those of its operand, and of these the DP field after an FP instruction without memory operand (rule R117). -/
def Obligations.FxsaveFrame : Prop :=
  ∀ (s t : State) (pre : List Prefix) (op : MemOp), exec (.fxsave pre op) s = .next t →
    t.fcw = s.fcw ∧ t.fsw = s.fsw ∧ t.ftw = s.ftw ∧ t.fop = s.fop ∧ t.fipOff = s.fipOff ∧ t.fipSel = s.fipSel ∧
    t.fdpOff = s.fdpOff ∧ t.fdpSel = s.fdpSel ∧ (∀ j, t.fr.get j = s.fr.get j) ∧ (∀ j, t.mm j = s.mm j) ∧
    t.fpExceptionPending = s.fpExceptionPending ∧
    (∀ r : GReg, t.regs.get r = s.regs.get r) ∧ t.eflags = s.eflags ∧ t.cr0 = s.cr0 ∧ t.cpl = s.cpl ∧
    (∀ x : SegName, t.seg x = s.seg x) ∧ (∀ m : Msr, t.msr m = s.msr m) ∧ t.params = s.params ∧
    (∀ a, (∀ b < 512, a ≠ operandAddress s pre op true b) → t.mem.byte a = s.mem.byte a) ∧
    (s.fpPrevNoMem = true →
      ∀ a, (∀ b < 512, a = operandAddress s pre op true b → 16 ≤ b ∧ b < 20) → t.mem.byte a = s.mem.byte a)

/-- After FXSAVE the addresses closed to instruction fetch are those closed before and those it wrote (`20_memory.md` section 6
decision D10, `40_fp_state_save_restore.md` section 3). -/
def Obligations.FxsaveClosesWrittenBytes : Prop :=
  ∀ (s t : State) (pre : List Prefix) (op : MemOp) (a : Nat), exec (.fxsave pre op) s = .next t →
    (a ∈ t.savedBytes ↔
      a ∈ s.savedBytes ∨
        ∃ b < 512, a = operandAddress s pre op true b ∧ ¬(s.fpPrevNoMem = true ∧ 16 ≤ b ∧ b < 20))

/-! ## FXRSTOR -/

/-- FXRSTOR completes on every operand it may access whose byte 5 is zero, and loads each field of the image; the registers go to
their places by the TOS just loaded, and the tag word is rebuilt from the valid bits and the loaded values
(`40_fp_state_save_restore.md` sections 1 to 3). Choices of the spec: the tag classes (decision D12, log entry 17) and what makes the
image one of 32-bit mode (decision D14, log entry 18). -/
def Obligations.FxrstorLoadsImage : Prop :=
  ∀ (s : State) (pre : List Prefix) (op : MemOp), OperandAccessible s pre op false →
    s.mem.byte (operandAddress s pre op false 5) = 0#8 →
    s.eip.toNat + (Instr.fxrstor pre op).length < 2 ^ 32 →
    ∃ t, exec (.fxrstor pre op) s = .next t ∧
      t.eip.toNat = s.eip.toNat + (Instr.fxrstor pre op).length ∧
      t.fcw.toNat = s.mem.field (operandAddress s pre op false) 0 2 ∧
      t.fsw.toNat = s.mem.field (operandAddress s pre op false) 2 2 ∧
      t.fop.toNat = s.mem.field (operandAddress s pre op false) 6 2 % 2048 ∧
      t.fipOff.toNat % 65536 = s.mem.field (operandAddress s pre op false) 8 2 ∧
      (s.mode32 = true → t.fipOff.toNat = s.mem.field (operandAddress s pre op false) 8 4) ∧
      t.fipSel.toNat = s.mem.field (operandAddress s pre op false) 12 2 ∧
      t.fdpOff.toNat % 65536 = s.mem.field (operandAddress s pre op false) 16 2 ∧
      (s.mode32 = true → t.fdpOff.toNat = s.mem.field (operandAddress s pre op false) 16 4) ∧
      t.fdpSel.toNat = s.mem.field (operandAddress s pre op false) 20 2 ∧
      (∀ i : BitVec 3, (t.st i).toNat = s.mem.field (operandAddress s pre op false) (32 + 16 * i.toNat) 10) ∧
      ∀ j : BitVec 3, tagAt t.ftw j.toNat =
        if (s.mem.byte (operandAddress s pre op false 4)).getLsbD j.toNat then tagOf (t.fr.get j) else tagEmpty

/-- FXRSTOR changes nothing but the FP and MMX state, EIP and the hidden bit `FpPrevNoMem`: no memory, no other register
(`10_state.md` section 8, `40_fp_state_save_restore.md` section 2). -/
def Obligations.FxrstorFrame : Prop :=
  ∀ (s t : State) (pre : List Prefix) (op : MemOp), exec (.fxrstor pre op) s = .next t →
    (∀ r : GReg, t.regs.get r = s.regs.get r) ∧ t.eflags = s.eflags ∧ t.cr0 = s.cr0 ∧ t.cpl = s.cpl ∧
    (∀ x : SegName, t.seg x = s.seg x) ∧ (∀ m : Msr, t.msr m = s.msr m) ∧
    (∀ a, t.mem.byte a = s.mem.byte a) ∧ t.savedBytes = s.savedBytes ∧ t.params = s.params

/-- FXRSTOR of an image whose byte 5 is not zero is refused: no fault, no state (`40_fp_state_save_restore.md` section 2 and
`92_eei_decisions.md` D13). -/
def Obligations.FxrstorRefusesUpperTagByte : Prop :=
  ∀ (s : State) (pre : List Prefix) (op : MemOp), OperandAccessible s pre op false →
    s.mem.byte (operandAddress s pre op false 5) ≠ 0#8 →
    exec (.fxrstor pre op) s = .refused .tagWordUpperByteNonzero

/-- A pending unmasked exception is kept by FXSAVE, SYSENTER and SYSEXIT, and after FXRSTOR it is what the image's FSW and FCW make
it (`60_exceptions.md` section 2, `40_fp_state_save_restore.md` section 2). -/
def Obligations.PendingExceptionPersists : Prop :=
  ∀ s t : State,
    (∀ pre op, exec (.fxsave pre op) s = .next t → t.fpExceptionPending = s.fpExceptionPending) ∧
    (exec .sysenter s = .next t → t.fpExceptionPending = s.fpExceptionPending) ∧
    (exec .sysexit s = .next t → t.fpExceptionPending = s.fpExceptionPending) ∧
    (∀ pre op, exec (.fxrstor pre op) s = .next t →
      (t.fpExceptionPending = true ↔ ∃ k < 6,
        (s.mem.byte (operandAddress s pre op false 2)).getLsbD k = true ∧
        (s.mem.byte (operandAddress s pre op false 0)).getLsbD k = false))

/-! ## FXSAVE and FXRSTOR together -/

/-- FXSAVE, then FXRSTOR of the same 512 bytes in the same mode, restores the FP state: control and status word, FOP, pointers and all
eight registers; a register is empty after exactly when it was before, and the class of the others is that of their contents
(`40_fp_state_save_restore.md` section 4). Choices of the spec enter it: the class of a register that is not empty (decision D12,
log entry 17), what makes the image one of 32-bit mode (decision D14) and where DS comes from when DP was not written (decision
D15, both log entry 18). -/
def Obligations.SaveRestoreRoundTrip : Prop :=
  ∀ (s t u : State) (pre pre' : List Prefix) (op op' : MemOp),
    s.mem.wf = true → OperandUnaliased s pre op true →
    exec (.fxsave pre op) s = .next t →
    exec (.fxrstor pre' op') t = .next u →
    (∀ b < 512, operandAddress t pre' op' false b = operandAddress s pre op true b) →
    u.fcw = s.fcw ∧ u.fsw = s.fsw ∧ u.fop = s.fop ∧ u.fipSel = s.fipSel ∧ (∀ j, u.fr.get j = s.fr.get j) ∧
    u.fipOff.setWidth 16 = s.fipOff.setWidth 16 ∧ (s.mode32 = true → u.fipOff = s.fipOff) ∧
    (∀ j : BitVec 3, tagAt u.ftw j.toNat =
      if tagAt s.ftw j.toNat = tagEmpty then tagEmpty else tagOf (s.fr.get j)) ∧
    (s.fpPrevNoMem = false →
      u.fdpSel = s.fdpSel ∧ u.fdpOff.setWidth 16 = s.fdpOff.setWidth 16 ∧ (s.mode32 = true → u.fdpOff = s.fdpOff)) ∧
    (s.fpPrevNoMem = true →
      u.fdpOff.toNat % 65536 = s.mem.field (operandAddress s pre op true) 16 2 ∧
      (s.mode32 = true → u.fdpOff.toNat = s.mem.field (operandAddress s pre op true) 16 4) ∧
      (u.fdpSel = s.fdpSel ∨ u.fdpSel.toNat = s.mem.field (operandAddress s pre op true) 20 2))

/-- An image that FXSAVE has made is never refused for its byte 5 (`40_fp_state_save_restore.md` section 4). -/
def Obligations.SavedImageNeverRefused : Prop :=
  ∀ (s t : State) (pre pre' : List Prefix) (op op' : MemOp),
    s.mem.wf = true → OperandUnaliased s pre op true →
    exec (.fxsave pre op) s = .next t →
    operandAddress t pre' op' false 5 = operandAddress s pre op true 5 →
    exec (.fxrstor pre' op') t ≠ .refused .tagWordUpperByteNonzero

/-- The format of the image does not depend on how the operand is addressed: two encodings of FXSAVE, or of FXRSTOR, that name the
same segment and offset, one with 16-bit and one with 32-bit addressing say, leave states that differ at most in EIP
(`20_memory.md` section 6, `30_encoding.md` section 3). -/
def Obligations.AddressSizeKeepsFormat : Prop :=
  ∀ (s t t' : State) (pre pre' : List Prefix) (op op' : MemOp),
    operandSegment s pre op = operandSegment s pre' op' → operandOffset s op = operandOffset s op' →
    (exec (.fxsave pre op) s = .next t → exec (.fxsave pre' op') s = .next t' → t' = { t with eip := t'.eip }) ∧
    (exec (.fxrstor pre op) s = .next t → exec (.fxrstor pre' op') s = .next t' → t' = { t with eip := t'.eip })

/-! ## The exceptions of FXSAVE and FXRSTOR -/

/-- The exceptions that apply to an FXSAVE or FXRSTOR, mode by mode, and those of SYSENTER and SYSEXIT: the table of
`60_exceptions.md` section 1. Choices of the spec: an offset above FFFFFE00h is outside every limit (decision D27, log entry 19), and
the width of the zero test (decision D18, log entry 20). -/
def Obligations.ExceptionMatrix : Prop :=
  (∀ (s : State) (pre : List Prefix) (seg : SegName) (off : Word) (write : Bool) (f : Fault),
    f ∈ applicableFaults s pre seg off write ↔
      (f = .invalidOpcode s.eip ∧ Prefix.lock ∈ pre) ∨
      (f = .deviceNotAvailable s.eip ∧ (s.crEM = true ∨ s.crTS = true)) ∨
      (f = .generalProtection s.eip ∧ ((s.seg seg).base.toNat + off.toNat) % 16 ≠ 0) ∨
      (f = .alignmentCheck s.eip ∧ s.mode ≠ .realAddress ∧ ((s.seg seg).base.toNat + off.toNat) % 16 ≠ 0 ∧
        s.crAM = true ∧ s.flagAC = true ∧ s.privilege = 3#2) ∨
      (f = .generalProtection s.eip ∧ s.mode = .protectedMode ∧ seg ≠ .ss ∧
        (0xFFFFFE00 < off.toNat ∨ segCheck s.params seg (s.seg seg) off write = false)) ∨
      (f = .stackSegment s.eip ∧ s.mode = .protectedMode ∧ seg = .ss ∧
        (0xFFFFFE00 < off.toNat ∨ segCheck s.params seg (s.seg seg) off write = false)) ∨
      (f = .interrupt13 s.eip ∧ s.mode ≠ .protectedMode ∧ 0xFFFF < off.toNat + 511) ∨
      (∃ code, f = .pageFault code s.eip ∧ s.mode ≠ .realAddress ∧
        ∃ i < 512, translateLinear s (linearAddress (s.seg seg) off i) write = .fault code)) ∧
  (∀ (s : State) (f : Fault), exec .sysenter s = .fault f →
    f = .generalProtection s.eip ∧ (s.mode = .realAddress ∨ s.sysenterCs.setWidth 32 = 0#32)) ∧
  (∀ (s : State) (f : Fault), exec .sysexit s = .fault f →
    f = .generalProtection s.eip ∧
      (s.mode = .realAddress ∨ s.sysenterCs.setWidth 32 = 0#32 ∨ s.privilege ≠ 0#2))

/-- FXSAVE and FXRSTOR report one of the exceptions that apply, whichever it is, and no other; where some exception applies and the
situation has a meaning, they do report one (`60_exceptions.md` section 3, decision D4). -/
def Obligations.ReportsOneApplicableException : Prop :=
  ∀ (s : State) (pre : List Prefix) (op : MemOp),
    (∀ f, exec (.fxsave pre op) s = .fault f →
      f ∈ applicableFaults s pre (operandSegment s pre op) (operandOffset s op) true) ∧
    (∀ f, exec (.fxrstor pre op) s = .fault f →
      f ∈ applicableFaults s pre (operandSegment s pre op) (operandOffset s op) false) ∧
    (s.params.hasFxsr = true → Prefix.rep ∉ pre → Prefix.repne ∉ pre → Prefix.operandSize ∉ pre →
      (s.seg (operandSegment s pre op)).base.toNat % 16 = 0 →
      (applicableFaults s pre (operandSegment s pre op) (operandOffset s op) true ≠ [] →
        ∃ f, exec (.fxsave pre op) s = .fault f) ∧
      (applicableFaults s pre (operandSegment s pre op) (operandOffset s op) false ≠ [] →
        ∃ f, exec (.fxrstor pre op) s = .fault f))

/-- Before FXSAVE or FXRSTOR a LOCK prefix makes #UD apply: the instruction raises an exception, and #UD when no other applies
(rule R91; which of several is reported stays open, log entry 15). -/
def Obligations.LockRaisesInvalidOpcode : Prop :=
  ∀ (s : State) (pre : List Prefix) (op : MemOp), Prefix.lock ∈ pre →
    s.params.hasFxsr = true → Prefix.rep ∉ pre → Prefix.repne ∉ pre → Prefix.operandSize ∉ pre →
    (s.seg (operandSegment s pre op)).base.toNat % 16 = 0 →
    (∀ write, .invalidOpcode s.eip ∈ applicableFaults s pre (operandSegment s pre op) (operandOffset s op) write) ∧
    (∃ f, exec (.fxsave pre op) s = .fault f) ∧ (∃ f, exec (.fxrstor pre op) s = .fault f) ∧
    ((∀ f ∈ applicableFaults s pre (operandSegment s pre op) (operandOffset s op) true, f = .invalidOpcode s.eip) →
      exec (.fxsave pre op) s = .fault (.invalidOpcode s.eip)) ∧
    ((∀ f ∈ applicableFaults s pre (operandSegment s pre op) (operandOffset s op) false, f = .invalidOpcode s.eip) →
      exec (.fxrstor pre op) s = .fault (.invalidOpcode s.eip))

/-- With CR0.EM or CR0.TS set, #NM applies to FXSAVE and FXRSTOR in every mode: the instruction raises an exception, and #NM when no
other applies; SYSENTER and SYSEXIT never raise #NM (rule R164; which of several is reported stays open, log entry 15). -/
def Obligations.DeviceNotAvailable : Prop :=
  (∀ (s : State) (pre : List Prefix) (op : MemOp), s.crEM = true ∨ s.crTS = true →
    s.params.hasFxsr = true → Prefix.rep ∉ pre → Prefix.repne ∉ pre → Prefix.operandSize ∉ pre →
    (s.seg (operandSegment s pre op)).base.toNat % 16 = 0 →
    (∀ write, .deviceNotAvailable s.eip ∈ applicableFaults s pre (operandSegment s pre op) (operandOffset s op) write) ∧
    (∃ f, exec (.fxsave pre op) s = .fault f) ∧ (∃ f, exec (.fxrstor pre op) s = .fault f) ∧
    ((∀ f ∈ applicableFaults s pre (operandSegment s pre op) (operandOffset s op) true, f = .deviceNotAvailable s.eip) →
      exec (.fxsave pre op) s = .fault (.deviceNotAvailable s.eip)) ∧
    ((∀ f ∈ applicableFaults s pre (operandSegment s pre op) (operandOffset s op) false, f = .deviceNotAvailable s.eip) →
      exec (.fxrstor pre op) s = .fault (.deviceNotAvailable s.eip))) ∧
  (∀ (s : State) (pc : Word), exec .sysenter s ≠ .fault (.deviceNotAvailable pc) ∧
    exec .sysexit s ≠ .fault (.deviceNotAvailable pc))

/-- #AC applies to FXSAVE and FXRSTOR exactly for an operand off a 16-byte boundary with CR0.AM = 1, EFLAGS.AC = 1 and privilege level
3, outside real-address mode; it never applies without the alignment #GP(0). Where these two are all that applies, one of them is
reported, with error code 0; without alignment checking #AC is never reported (rule R165; which of the two stays open, log entry 15). -/
def Obligations.AlignmentCheckBesideGeneralProtection : Prop :=
  (∀ (s : State) (pre : List Prefix) (seg : SegName) (off : Word) (write : Bool),
    (.alignmentCheck s.eip ∈ applicableFaults s pre seg off write ↔
      s.mode ≠ .realAddress ∧ s.crAM = true ∧ s.flagAC = true ∧ s.privilege = 3#2 ∧
        ((s.seg seg).base.toNat + off.toNat) % 16 ≠ 0) ∧
    (.alignmentCheck s.eip ∈ applicableFaults s pre seg off write →
      .generalProtection s.eip ∈ applicableFaults s pre seg off write)) ∧
  (∀ (s : State) (pre : List Prefix) (op : MemOp), s.params.hasFxsr = true →
    Prefix.rep ∉ pre → Prefix.repne ∉ pre → Prefix.operandSize ∉ pre →
    (s.seg (operandSegment s pre op)).base.toNat % 16 = 0 → (operandOffset s op).toNat % 16 ≠ 0 →
    s.alignmentCheckOn = true →
    ((∀ f ∈ applicableFaults s pre (operandSegment s pre op) (operandOffset s op) true,
        f = .generalProtection s.eip ∨ f = .alignmentCheck s.eip) →
      exec (.fxsave pre op) s = .fault (.generalProtection s.eip) ∨
        exec (.fxsave pre op) s = .fault (.alignmentCheck s.eip)) ∧
    ((∀ f ∈ applicableFaults s pre (operandSegment s pre op) (operandOffset s op) false,
        f = .generalProtection s.eip ∨ f = .alignmentCheck s.eip) →
      exec (.fxrstor pre op) s = .fault (.generalProtection s.eip) ∨
        exec (.fxrstor pre op) s = .fault (.alignmentCheck s.eip))) ∧
  (∀ (s : State) (pre : List Prefix) (op : MemOp) (pc : Word), s.alignmentCheckOn = false →
    exec (.fxsave pre op) s ≠ .fault (.alignmentCheck pc) ∧ exec (.fxrstor pre op) s ≠ .fault (.alignmentCheck pc)) ∧
  (∀ pc : Word, (Fault.alignmentCheck pc).errorCode = some 0 ∧ (Fault.generalProtection pc).errorCode = some 0)

/-- Every fault of a step carries the `pc` of the instruction at which the step began, and the error code of its exception. A #PF
carries a code with which the translation faults on a byte the step needed: the next byte of an instruction not yet complete, or
a byte of the operand of the FXSAVE or FXRSTOR decoded (`60_exceptions.md` sections 1 and 3, `20_memory.md` section 4; the `pc` is
decision D3, log entry 8, and the fetch's #PF log entry 13). -/
def Obligations.FaultsCarryPcAndCode : Prop :=
  ∀ (s : State) (f : Fault), step s = .fault f →
    f.pc = s.eip ∧
    (f = .generalProtection s.eip ∨ f = .stackSegment s.eip ∨ f = .alignmentCheck s.eip → f.errorCode = some 0) ∧
    (f = .invalidOpcode s.eip ∨ f = .deviceNotAvailable s.eip ∨ f = .interrupt13 s.eip → f.errorCode = none) ∧
    (∀ code, f = .pageFault code s.eip → f.errorCode = some code ∧ s.mode ≠ .realAddress ∧
      ((∃ bytes, s.Fetches bytes ∧ decode s.defaultAddrSize bytes = .truncated ∧
          s.eip.toNat + bytes.length ≤ s.cs.effLimit.toNat ∧
          translateLinear s (instructionAddress s bytes.length) false = .fault code) ∨
        (∃ pre op rest, s.decoded = .ok (.fxsave pre op) rest ∧ ∃ b < 512,
          translateLinear s (linearAddress (s.seg (operandSegment s pre op)) (operandOffset s op) b) true = .fault code) ∨
        (∃ pre op rest, s.decoded = .ok (.fxrstor pre op) rest ∧ ∃ b < 512,
          translateLinear s (linearAddress (s.seg (operandSegment s pre op)) (operandOffset s op) b) false = .fault code)))

/-! ## Operands -/

/-- Addressing forms of `95_test_vectors.md` V15 decode, and their segment and offset are those of the vectors. -/
def Obligations.AddressingExamples : Prop :=
  ∀ s : State,
    (∃ op, decode .a32 [0x0F, 0xAE, 0x84, 0xB3, 0x00, 0x01, 0x00, 0x00] = .ok (.fxsave [] op) [] ∧
      operandSegment s [] op = .ds ∧ operandOffset s op = s.regs.ebx + s.regs.esi * 4#32 + 0x100#32) ∧
    (∃ op, decode .a32 [0x0F, 0xAE, 0x45, 0x08] = .ok (.fxsave [] op) [] ∧
      operandSegment s [] op = .ss ∧ operandOffset s op = s.regs.ebp + 8#32) ∧
    (∃ op, decode .a32 [0x0F, 0xAE, 0x4B, 0xF0] = .ok (.fxrstor [] op) [] ∧
      operandSegment s [] op = .ds ∧ operandOffset s op = s.regs.ebx + 0xFFFFFFF0#32) ∧
    (∃ op, decode .a32 [0x67, 0x0F, 0xAE, 0x00] = .ok (.fxsave [.addressSize] op) [] ∧
      operandSegment s [.addressSize] op = .ds ∧
      operandOffset s op = (s.regs.ebx.setWidth 16 + s.regs.esi.setWidth 16 : BitVec 16).setWidth 32)

/-- Every row of the tables of 32-bit and of 16-bit addressing, from the bits of ModR/M, SIB and displacement to the default segment
and the offset: every base, index, scale and displacement (`30_encoding.md` section 2; a repeated address-size prefix acts as
one, log entry 14). -/
def Obligations.AddressingForms : Prop :=
  ([.eax, .ecx, .edx, .ebx, .esp, .ebp, .esi, .edi] : List GReg).map GReg.num = [0, 1, 2, 3, 4, 5, 6, 7] ∧
  ∀ (s : State) (b0 b1 b2 b3 : Byte),
    (∀ g : GReg,
      (g ≠ .esp → g ≠ .ebp → NamesOperand s .a32 0 g.num [] .ds (s.regs.get g)) ∧
      (g ≠ .esp → NamesOperand s .a32 1 g.num [b0] (if g = .ebp then .ss else .ds) (s.regs.get g + b0.signExtend 32)) ∧
      (g ≠ .esp → NamesOperand s .a32 2 g.num [b0, b1, b2, b3] (if g = .ebp then .ss else .ds)
        (s.regs.get g + (b3 ++ b2 ++ b1 ++ b0)))) ∧
    NamesOperand s .a32 0 5 [b0, b1, b2, b3] .ds (b3 ++ b2 ++ b1 ++ b0) ∧
    (∀ (scale : BitVec 2) (x g : GReg),
      (g ≠ .ebp → NamesOperand s .a32 0 4 [scale ++ x.num ++ g.num] (if g = .esp then .ss else .ds)
        (s.regs.get g + sibIndexTerm s scale x)) ∧
      NamesOperand s .a32 0 4 [scale ++ x.num ++ 5#3, b0, b1, b2, b3] .ds
        ((b3 ++ b2 ++ b1 ++ b0) + sibIndexTerm s scale x) ∧
      NamesOperand s .a32 1 4 [scale ++ x.num ++ g.num, b0] (if g = .esp ∨ g = .ebp then .ss else .ds)
        (s.regs.get g + sibIndexTerm s scale x + b0.signExtend 32) ∧
      NamesOperand s .a32 2 4 [scale ++ x.num ++ g.num, b0, b1, b2, b3] (if g = .esp ∨ g = .ebp then .ss else .ds)
        (s.regs.get g + sibIndexTerm s scale x + (b3 ++ b2 ++ b1 ++ b0))) ∧
    (∀ (rm : BitVec 3) (sum : Half) (seg : SegName),
      (rm, sum, seg) ∈
        [(0#3, s.regs.ebx.setWidth 16 + s.regs.esi.setWidth 16, SegName.ds),
          (1#3, s.regs.ebx.setWidth 16 + s.regs.edi.setWidth 16, .ds),
          (2#3, s.regs.ebp.setWidth 16 + s.regs.esi.setWidth 16, .ss),
          (3#3, s.regs.ebp.setWidth 16 + s.regs.edi.setWidth 16, .ss),
          (4#3, s.regs.esi.setWidth 16, .ds),
          (5#3, s.regs.edi.setWidth 16, .ds),
          (6#3, s.regs.ebp.setWidth 16, .ss),
          (7#3, s.regs.ebx.setWidth 16, .ds)] →
      (rm ≠ 6#3 → NamesOperand s .a16 0 rm [] seg (sum.setWidth 32)) ∧
      NamesOperand s .a16 1 rm [b0] seg ((sum + b0.signExtend 16).setWidth 32) ∧
      NamesOperand s .a16 2 rm [b0, b1] seg ((sum + (b1 ++ b0)).setWidth 32)) ∧
    NamesOperand s .a16 0 6 [b0, b1] .ds ((b1 ++ b0 : Half).setWidth 32)

/-- The default address size is 16 in real-address and virtual-8086 mode and follows `CS.D` in protected mode, and an address-size prefix
switches it; the modes are those that CR0.PE (bit 0) and EFLAGS.VM (bit 17) make (`30_encoding.md` section 2,
`60_exceptions.md` section 4; the bit positions are log entry 16, a repeated prefix log entry 14). -/
def Obligations.DefaultAddressSize : Prop :=
  (∀ s : State,
    (s.mode = .realAddress ↔ s.cr0.getLsbD 0 = false) ∧
    (s.mode = .virtual8086 ↔ s.cr0.getLsbD 0 = true ∧ s.eflags.getLsbD 17 = true) ∧
    (s.mode = .protectedMode ↔ s.cr0.getLsbD 0 = true ∧ s.eflags.getLsbD 17 = false) ∧
    (s.mode = .realAddress ∨ s.mode = .virtual8086 → s.defaultAddrSize = .a16) ∧
    (s.mode = .protectedMode → s.cs.d = false → s.defaultAddrSize = .a16) ∧
    (s.mode = .protectedMode → s.cs.d = true → s.defaultAddrSize = .a32)) ∧
  ∀ (dflt : AddrSize) (pre : List Prefix),
    (Prefix.addressSize ∉ pre → addrSizeOf dflt pre = dflt) ∧
    (Prefix.addressSize ∈ pre → addrSizeOf .a16 pre = .a32 ∧ addrSizeOf .a32 pre = .a16)

/-- The default segment of every form is SS where the base register is ESP, EBP or BP and DS otherwise. Without an override the operand
has its default segment; a single override replaces it; of several the model takes one of those present (`30_encoding.md`
section 2; several overrides are the model's choice, log entry 14). -/
def Obligations.SegmentOverrides : Prop :=
  (∀ g d, defaultSegment (.based32 g d) = if g = .esp ∨ g = .ebp then .ss else .ds) ∧
  (∀ w, defaultSegment (.absolute32 w) = .ds) ∧
  (∀ scale x g d, defaultSegment (.sib scale x g d) = if g = .esp ∨ g = .ebp then .ss else .ds) ∧
  (∀ scale x w, defaultSegment (.sibAbsolute scale x w) = .ds) ∧
  (∀ b d, defaultSegment (.based16 b d) = if b = .bp ∨ b = .bpsi ∨ b = .bpdi then .ss else .ds) ∧
  (∀ h, defaultSegment (.absolute16 h) = .ds) ∧
  ∀ (s : State) (pre : List Prefix) (op : MemOp),
    ((∀ x, Prefix.segment x ∉ pre) → operandSegment s pre op = defaultSegment op) ∧
    (∀ x, Prefix.segment x ∈ pre → (∀ y, Prefix.segment y ∈ pre → y = x) → operandSegment s pre op = x) ∧
    ((∃ x, Prefix.segment x ∈ pre) → Prefix.segment (operandSegment s pre op) ∈ pre)

/-- Without paging the operand's byte `i` lies at base plus offset plus `i` modulo 2^32, so its 512 addresses differ (`20_memory.md`
sections 1 and 4; the modulus is the model's choice, log entry 12). -/
def Obligations.UnpagedOperandIsContiguous : Prop :=
  ∀ (s : State) (pre : List Prefix) (op : MemOp) (write : Bool),
    s.mode = .realAddress ∨ s.params.pageRules = [] →
    (∀ i, operandAddress s pre op write i =
      ((s.seg (operandSegment s pre op)).base.toNat + (operandOffset s op).toNat + i) % 2 ^ 32) ∧
    OperandUnaliased s pre op write

/-- After SYSENTER the code is 32-bit and flat: the default address size is 32, and CS and SS pass every operand that does not wrap,
whatever the parameters of the part (`20_memory.md` section 4, `30_encoding.md` section 2). That the image of FXSAVE is then in
32-bit form is a choice (`40_fp_state_save_restore.md` section 1, decision D14, log entry 18). -/
def Obligations.KernelSegmentsAreFlat : Prop :=
  ∀ s t : State, exec .sysenter s = .next t →
    t.defaultAddrSize = .a32 ∧ t.mode32 = true ∧
    ∀ (off : Word) (write : Bool), off.toNat ≤ 0xFFFFFE00 →
      outsideSegment t .cs off write = false ∧ outsideSegment t .ss off write = false

/-- After SYSEXIT the code is 32-bit and flat: the processor is in protected mode, the default address size is 32, and CS and SS pass
every operand that does not wrap, whatever the parameters of the part (`20_memory.md` section 4, `30_encoding.md` section 2).
That the image of FXSAVE is then in 32-bit form is a choice (`40_fp_state_save_restore.md` section 1, decision D14, log entry
18). -/
def Obligations.UserSegmentsAreFlat : Prop :=
  ∀ s t : State, exec .sysexit s = .next t →
    t.mode = .protectedMode ∧ t.defaultAddrSize = .a32 ∧ t.mode32 = true ∧
    ∀ (off : Word) (write : Bool), off.toNat ≤ 0xFFFFFE00 →
      outsideSegment t .cs off write = false ∧ outsideSegment t .ss off write = false

/-! ## Tags and the register stack -/

/-- The class of an 80-bit value and the tag of an empty register, by exponent, J-bit and fraction (rule R115). -/
def Obligations.TagClasses : Prop :=
  ∀ v : Ext,
    restoredTag false v = tagEmpty ∧ restoredTag true v = tagOf v ∧
    (exponentOf v = BitVec.allOnes 15 → tagOf v = tagSpecial) ∧
    (exponentOf v = 0#15 → jBit v = false → fractionOf v = 0#63 → tagOf v = tagZero) ∧
    (exponentOf v = 0#15 → jBit v = true ∨ fractionOf v ≠ 0#63 → tagOf v = tagSpecial) ∧
    (exponentOf v ≠ 0#15 → exponentOf v ≠ BitVec.allOnes 15 → jBit v = true → tagOf v = tagValid) ∧
    (exponentOf v ≠ 0#15 → exponentOf v ≠ BitVec.allOnes 15 → jBit v = false → tagOf v = tagSpecial) ∧
    (fractionOf v = 0#63 → v.getLsbD 62 = false)

/-- The sign of a value does not enter its class (`40_fp_state_save_restore.md` section 3: the table has no sign column). -/
def Obligations.TagIgnoresSign : Prop :=
  ∀ v w : Ext, v.setWidth 79 = w.setWidth 79 → tagOf v = tagOf w

/-- Bit `j` of the saved tag byte is 0 exactly when FRj is empty, and the source's example gives 70h (`40_fp_state_save_restore.md`
section 3; the order of the bits is derived there). -/
def Obligations.ValidBits : Prop :=
  (∀ (ftw : Half) (j : Nat), j < 8 → ((abridgedTag ftw).getLsbD j = false ↔ tagAt ftw j = 0b11#2)) ∧
  (∀ a b c : BitVec 2, a ≠ 0b11#2 → b ≠ 0b11#2 → c ≠ 0b11#2 →
    abridgedTag (0b11#2 ++ a ++ b ++ c ++ 0b11111111#8) = 0x70#8)

/-- With TOS = 4, ST(0) is FR4, ST(3) is FR7 and ST(4) is FR0 (`10_state.md` section 6, derived there from the source's
example). -/
def Obligations.StackOverRegisters : Prop :=
  ∀ s : State, tosOf s.fsw = 4#3 →
    s.st 0 = s.fr.fr4 ∧ s.st 1 = s.fr.fr5 ∧ s.st 2 = s.fr.fr6 ∧ s.st 3 = s.fr.fr7 ∧
    s.st 4 = s.fr.fr0 ∧ s.st 5 = s.fr.fr1 ∧ s.st 6 = s.fr.fr2 ∧ s.st 7 = s.fr.fr3

/-! ## The whole machine -/

/-- The state after reset meets the invariant, in real-address mode with interrupts masked (the reset values are the family's or the
model's choice, log entry 1). -/
def Obligations.ResetMeetsInvariant : Prop :=
  State.reset.Inv ∧ State.reset.mode = .realAddress ∧ State.reset.flagIF = false

/-- Every step keeps the invariant: memory and the list of saved bytes stay canonical, the mode stays legal, the RPL of CS stays CPL
in protected mode (`10_state.md` section 3, `60_exceptions.md` section 4, log entries 3 and 4). -/
def Obligations.StepKeepsInvariant : Prop :=
  ∀ s t : State, s.Inv → step s = .next t → t.Inv

/-- No step writes DS, ES, FS or GS, and none but SYSENTER and SYSEXIT writes CS or SS (rule R26). -/
def Obligations.StepKeepsDataSegments : Prop :=
  ∀ s t : State, step s = .next t →
    t.seg .ds = s.seg .ds ∧ t.seg .es = s.seg .es ∧ t.seg .fs = s.seg .fs ∧ t.seg .gs = s.seg .gs ∧
    ((∃ i rest, s.decoded = .ok i rest ∧ (i = .sysenter ∨ i = .sysexit)) ∨
      (t.seg .cs = s.seg .cs ∧ t.seg .ss = s.seg .ss))

/-- No step writes CR0, a model-specific register or the parameters of the part (`10_state.md` sections 3 and 5, `00_scope.md`
section 4). -/
def Obligations.StepKeepsControlRegisters : Prop :=
  ∀ s t : State, step s = .next t → t.cr0 = s.cr0 ∧ (∀ m : Msr, t.msr m = s.msr m) ∧ t.params = s.params

/-- Every completed instruction leaves `FpPrevNoMem` 0 (`10_state.md` section 7, derived there from the operands of the four
instructions). -/
def Obligations.StepClearsFpPrevNoMem : Prop :=
  ∀ s t : State, step s = .next t → t.fpPrevNoMem = false

/-- The mode changes of the four instructions: SYSENTER makes CPL 0 and clears VM, SYSEXIT makes CPL 3 and leaves VM, which is 0; both
leave PE; FXSAVE and FXRSTOR change no mode (rule R181). -/
def Obligations.ModeChanges : Prop :=
  ∀ s t : State, step s = .next t → ∃ i rest, s.decoded = .ok i rest ∧
    (i = .sysenter → t.cpl = 0#2 ∧ t.flagVM = false ∧ t.crPE = s.crPE) ∧
    (i = .sysexit → t.cpl = 3#2 ∧ t.flagVM = s.flagVM ∧ s.flagVM = false ∧ t.crPE = s.crPE) ∧
    ((∃ pre op, i = .fxsave pre op ∨ i = .fxrstor pre op) →
      t.mode = s.mode ∧ t.cpl = s.cpl ∧ t.flagVM = s.flagVM ∧ t.crPE = s.crPE)

/-- Only FXSAVE writes memory: any other step leaves every byte, and the bytes closed to fetch, as they were (`20_memory.md`
section 5). -/
def Obligations.OnlyFxsaveWritesMemory : Prop :=
  ∀ s t : State, step s = .next t →
    (∃ pre op rest, s.decoded = .ok (.fxsave pre op) rest) ∨ (t.mem = s.mem ∧ t.savedBytes = s.savedBytes)

/-- Until software outside the spec sets CR0.PE, SYSENTER and SYSEXIT raise #GP(0) at every point of every run, and likewise while
SYSENTER_CS_MSR holds zero (`70_reset_and_hazards.md` section 1). -/
def Obligations.FastCallsFaultUntilSetUp : Prop :=
  ∀ (n : Nat) (s t : State), RunsTo n s t → hasFastSyscall s.params = true →
    s.crPE = false ∨ s.sysenterCs.setWidth 32 = 0#32 →
    exec .sysenter t = .fault (.generalProtection t.eip) ∧ exec .sysexit t = .fault (.generalProtection t.eip)
end

