-- ==== Sys2Proof/Laws/Decode.lean ====
section
/-! SUPPORT. What more bytes change for the decoder: an answer it has given stays, and only `truncated` can turn
into another answer. -/

namespace Sys2Proof.Laws

/-- Where a byte that is no prefix follows the prefixes, more bytes at the end stay at the end. -/
theorem splitPrefixes_append {bs : List Byte} (more : List Byte) (h : (splitPrefixes bs).2 ≠ []) :
    splitPrefixes (bs ++ more) = ((splitPrefixes bs).1, (splitPrefixes bs).2 ++ more) := by
  induction bs with
  | nil => exact absurd rfl h
  | cons b bs ih =>
    rw [splitPrefixes] at h
    rw [List.cons_append, splitPrefixes, splitPrefixes]
    cases hb : prefixOf b with
    | some p => rw [hb] at h; simp only [ih h]
    | none => rfl

theorem take8_append {bs : List Byte} {r : Byte × List Byte} (more : List Byte) (h : take8 bs = some r) :
    take8 (bs ++ more) = some (r.1, r.2 ++ more) := by
  unfold take8 at h
  split at h
  · cases h; rfl
  · cases h

theorem take16_append {bs : List Byte} {r : Half × List Byte} (more : List Byte) (h : take16 bs = some r) :
    take16 (bs ++ more) = some (r.1, r.2 ++ more) := by
  unfold take16 at h
  split at h
  · cases h; rfl
  · cases h

theorem take32_append {bs : List Byte} {r : Word × List Byte} (more : List Byte) (h : take32 bs = some r) :
    take32 (bs ++ more) = some (r.1, r.2 ++ more) := by
  unfold take32 at h
  split at h
  · cases h; rfl
  · cases h

theorem decodeDisp32_append {mod : BitVec 2} {bs : List Byte} {r : Disp32 × List Byte} (more : List Byte)
    (h : decodeDisp32 mod bs = some r) : decodeDisp32 mod (bs ++ more) = some (r.1, r.2 ++ more) := by
  unfold decodeDisp32 at h ⊢
  split at h
  · cases h; rfl
  · obtain ⟨q, hq, rfl⟩ := Option.map_eq_some_iff.mp h
    simp only [take8_append more hq, Option.map_some]
  · obtain ⟨q, hq, rfl⟩ := Option.map_eq_some_iff.mp h
    simp only [take32_append more hq, Option.map_some]

theorem decodeDisp16_append {mod : BitVec 2} {bs : List Byte} {r : Disp16 × List Byte} (more : List Byte)
    (h : decodeDisp16 mod bs = some r) : decodeDisp16 mod (bs ++ more) = some (r.1, r.2 ++ more) := by
  unfold decodeDisp16 at h ⊢
  split at h
  · cases h; rfl
  · obtain ⟨q, hq, rfl⟩ := Option.map_eq_some_iff.mp h
    simp only [take8_append more hq, Option.map_some]
  · obtain ⟨q, hq, rfl⟩ := Option.map_eq_some_iff.mp h
    simp only [take16_append more hq, Option.map_some]

theorem decodeSib_append {mod : BitVec 2} {bs : List Byte} {r : MemOp × List Byte} (more : List Byte)
    (h : decodeSib mod bs = some r) : decodeSib mod (bs ++ more) = some (r.1, r.2 ++ more) := by
  cases bs with
  | nil => cases h
  | cons sib bs =>
    simp only [List.cons_append, decodeSib] at h ⊢
    split at h <;> obtain ⟨q, hq, rfl⟩ := Option.map_eq_some_iff.mp h
    · rw [if_pos ‹_›, take32_append more hq, Option.map_some]
    · rw [if_neg ‹_›, decodeDisp32_append more hq, Option.map_some]

/-- An operand that the bytes hold is the operand of any longer bytes. -/
theorem decodeOperand_append {size : AddrSize} {mod : BitVec 2} {rm : BitVec 3} {bs : List Byte} {r : MemOp × List Byte}
    (more : List Byte) (h : decodeOperand size mod rm bs = some r) :
    decodeOperand size mod rm (bs ++ more) = some (r.1, r.2 ++ more) := by
  cases size <;> simp only [decodeOperand] at h ⊢
  · unfold decodeOperand16 at h ⊢
    split at h <;> obtain ⟨q, hq, rfl⟩ := Option.map_eq_some_iff.mp h
    · rw [if_pos ‹_›, take16_append more hq, Option.map_some]
    · rw [if_neg ‹_›, decodeDisp16_append more hq, Option.map_some]
  · unfold decodeOperand32 at h ⊢
    split at h
    · rw [if_pos ‹_›, decodeSib_append more h]
    · rw [if_neg ‹_›]
      split at h <;> obtain ⟨q, hq, rfl⟩ := Option.map_eq_some_iff.mp h
      · rw [if_pos ‹_›, take32_append more hq, Option.map_some]
      · rw [if_neg ‹_›, decodeDisp32_append more hq, Option.map_some]

/-- The answer for longer bytes: the same instruction or refusal, with the further bytes at the end of the rest. -/
def extendAnswer (more : List Byte) : Decoded → Decoded
  | .ok i rest => .ok i (rest ++ more)
  | .refused why => .refused why
  | .truncated => .truncated

theorem finishOperand_append {mk : MemOp → Instr} {size : AddrSize} {mod : BitVec 2} {rm : BitVec 3} {bs : List Byte}
    (more : List Byte) (h : finishOperand mk (decodeOperand size mod rm bs) ≠ .truncated) :
    finishOperand mk (decodeOperand size mod rm (bs ++ more)) =
      extendAnswer more (finishOperand mk (decodeOperand size mod rm bs)) := by
  cases hd : decodeOperand size mod rm bs with
  | none => rw [hd] at h; exact absurd rfl h
  | some r => rw [decodeOperand_append more hd]; rfl

theorem decodeModRM_append {dflt : AddrSize} {pre : List Prefix} {bs : List Byte} (more : List Byte)
    (h : decodeModRM dflt pre bs ≠ .truncated) :
    decodeModRM dflt pre (bs ++ more) = extendAnswer more (decodeModRM dflt pre bs) := by
  cases bs with
  | nil => exact absurd rfl h
  | cons m bs =>
    simp only [List.cons_append, decodeModRM] at h ⊢
    split_ifs at h ⊢
    · rfl
    · exact finishOperand_append more h
    · exact finishOperand_append more h
    · rfl

theorem decodePlain_append (pre : List Prefix) (i : Instr) (rest more : List Byte) :
    decodePlain pre i (rest ++ more) = extendAnswer more (decodePlain pre i rest) := by
  unfold decodePlain
  split <;> rfl

theorem decodeSecond_append {dflt : AddrSize} {pre : List Prefix} {bs : List Byte} (more : List Byte)
    (h : decodeSecond dflt pre bs ≠ .truncated) :
    decodeSecond dflt pre (bs ++ more) = extendAnswer more (decodeSecond dflt pre bs) := by
  cases bs with
  | nil => exact absurd rfl h
  | cons b bs =>
    simp only [List.cons_append, decodeSecond] at h ⊢
    split_ifs at h ⊢
    · exact decodePlain_append pre _ bs more
    · exact decodePlain_append pre _ bs more
    · exact decodeModRM_append more h
    · rfl

theorem decodeFirst_append {dflt : AddrSize} {pre : List Prefix} {bs : List Byte} (more : List Byte)
    (h : decodeFirst dflt pre bs ≠ .truncated) :
    decodeFirst dflt pre (bs ++ more) = extendAnswer more (decodeFirst dflt pre bs) := by
  cases bs with
  | nil => exact absurd rfl h
  | cons b bs =>
    simp only [List.cons_append, decodeFirst] at h ⊢
    split_ifs at h ⊢
    · exact decodeSecond_append more h
    · rfl

/-- What the decoder has answered on some bytes it answers on any longer bytes. -/
theorem decode_append {dflt : AddrSize} {bs : List Byte} (more : List Byte) (h : decode dflt bs ≠ .truncated) :
    decode dflt (bs ++ more) = extendAnswer more (decode dflt bs) := by
  unfold decode at h ⊢
  have hs : (splitPrefixes bs).2 ≠ [] := fun hn => h (by rw [hn]; rfl)
  rw [splitPrefixes_append more hs]
  exact decodeFirst_append more h

end Sys2Proof.Laws
end

