-- ==== Sys2Proof/Laws/Memory.lean ====
section
/-! SUPPORT. The laws of the sorted tables and of memory: a byte reads as it was stored, every other byte is left alone,
and each operation keeps the canonical form. -/

namespace Sys2Proof.Laws

open Sys2Proof.Machine

/-! ## Sorted tables -/

theorem rising_iff (l : List Nat) : rising l = true ↔ l.Pairwise (· < ·) := by
  induction l with
  | nil => simp [rising]
  | cons a rest ih => simp [rising, ih]

theorem lookup_setEntry_ne {α : Type} {key k : Nat} (v : Option α) (l : List (Nat × α)) (h : key ≠ k) :
    lookup key (setEntry k v l) = lookup key l := by
  induction l with
  | nil => cases v <;> simp [setEntry, consEntry, lookup, h]
  | cons e rest ih =>
    obtain ⟨b, w⟩ := e
    unfold setEntry
    split
    · cases v <;> simp [consEntry, lookup, h]
    · split
      · subst_vars
        cases v <;> simp [consEntry, lookup, h]
      · simp [lookup, ih]

theorem lookup_setEntry_some {α : Type} (key : Nat) (v : α) (l : List (Nat × α)) :
    lookup key (setEntry key (some v) l) = some v := by
  induction l with
  | nil => simp [setEntry, consEntry, lookup]
  | cons e rest ih =>
    obtain ⟨b, w⟩ := e
    unfold setEntry
    split
    · simp [consEntry, lookup]
    · split
      · simp [consEntry, lookup]
      · simp [lookup, *]

theorem lookup_eq_none_of_lt {α : Type} (key : Nat) (l : List (Nat × α)) (h : ∀ e ∈ l, key < e.1) :
    lookup key l = none := by
  induction l with
  | nil => rfl
  | cons e rest ih =>
    have := h e (by simp)
    simp only [lookup]
    rw [if_neg (by omega)]
    exact ih fun x hx => h x (by simp [hx])

theorem lookup_setEntry_none {α : Type} (key : Nat) (l : List (Nat × α))
    (h : (l.map Prod.fst).Pairwise (· < ·)) : lookup key (setEntry key none l) = none := by
  induction l with
  | nil => simp [setEntry, consEntry, lookup]
  | cons e rest ih =>
    obtain ⟨b, w⟩ := e
    simp only [List.map_cons, List.pairwise_cons, List.mem_map, forall_exists_index, and_imp] at h
    unfold setEntry
    split
    · refine lookup_eq_none_of_lt _ _ fun x hx => ?_
      rcases List.mem_cons.mp hx with rfl | hx
      · simpa using ‹key < b›
      · have := h.1 x.1 x hx rfl
        omega
    · split
      · subst_vars
        exact lookup_eq_none_of_lt _ _ fun x hx => h.1 x.1 x hx rfl
      · simp [lookup, ih h.2, *]

theorem keys_setEntry_sub {α : Type} (key : Nat) (v : Option α) (l : List (Nat × α)) (a : Nat)
    (h : a ∈ (setEntry key v l).map Prod.fst) : a = key ∨ a ∈ l.map Prod.fst := by
  induction l with
  | nil => cases v <;> simp_all [setEntry, consEntry]
  | cons e rest ih =>
    obtain ⟨b, w⟩ := e
    unfold setEntry at h
    split at h
    · cases v <;> simp_all [consEntry]
    · split at h
      · cases v <;> simp_all [consEntry]
      · simp only [List.map_cons, List.mem_cons] at h ⊢
        rcases h with h | h
        · exact .inr (.inl h)
        · exact (ih h).imp id .inr

theorem rising_setEntry {α : Type} (key : Nat) (v : Option α) (l : List (Nat × α))
    (h : (l.map Prod.fst).Pairwise (· < ·)) : ((setEntry key v l).map Prod.fst).Pairwise (· < ·) := by
  induction l with
  | nil => cases v <;> simp [setEntry, consEntry]
  | cons e rest ih =>
    obtain ⟨b, w⟩ := e
    simp only [List.map_cons, List.pairwise_cons] at h
    unfold setEntry
    split
    · cases v with
      | none => simpa [consEntry] using h
      | some v =>
        simp only [consEntry, List.map_cons, List.pairwise_cons, List.mem_cons]
        refine ⟨fun a ha => ?_, h⟩
        rcases ha with rfl | ha
        · assumption
        · have := h.1 a ha
          omega
    · split
      · subst_vars
        cases v with
        | none => simpa [consEntry] using h.2
        | some v => simpa [consEntry] using h
      · simp only [List.map_cons, List.pairwise_cons]
        refine ⟨fun a ha => ?_, ih h.2⟩
        rcases keys_setEntry_sub _ _ _ _ ha with rfl | ha
        · omega
        · exact h.1 a ha

theorem mem_setEntry {α : Type} (key : Nat) (v : Option α) (l : List (Nat × α)) (e : Nat × α)
    (h : e ∈ setEntry key v l) : (e.1 = key ∧ v = some e.2) ∨ e ∈ l := by
  induction l with
  | nil => cases v <;> simp_all [setEntry, consEntry]
  | cons x rest ih =>
    obtain ⟨b, w⟩ := x
    unfold setEntry at h
    split at h
    · cases v <;> simp_all [consEntry]
      rcases h with rfl | h | h <;> simp_all
    · split at h
      · cases v <;> simp_all [consEntry]
        rcases h with rfl | h <;> simp_all
      · simp only [List.mem_cons] at h ⊢
        rcases h with rfl | h
        · exact .inr (.inl rfl)
        · exact (ih h).imp id .inr

theorem mem_insertAddr (a b : Nat) (l : List Nat) : b ∈ insertAddr a l ↔ b = a ∨ b ∈ l := by
  induction l with
  | nil => simp [insertAddr]
  | cons c rest ih =>
    unfold insertAddr
    split
    · simp
    · split
      · subst_vars; simp
      · simp [ih]; tauto

theorem rising_insertAddr (a : Nat) (l : List Nat) (h : rising l = true) : rising (insertAddr a l) = true := by
  rw [rising_iff] at h ⊢
  induction l with
  | nil => simp [insertAddr]
  | cons c rest ih =>
    simp only [List.pairwise_cons] at h
    unfold insertAddr
    split
    · simp only [List.pairwise_cons, List.mem_cons]
      refine ⟨fun x hx => ?_, h⟩
      rcases hx with rfl | hx
      · assumption
      · have := h.1 x hx
        omega
    · split
      · simpa using h
      · simp only [List.pairwise_cons]
        refine ⟨fun x hx => ?_, ih h.2⟩
        rcases (mem_insertAddr _ _ _).mp hx with rfl | hx
        · omega
        · exact h.1 x hx

/-! ## One byte of memory -/

/-- What a stored content reads as, over the byte that stood there. -/
def storedValue (old : Byte) : Stored → Byte
  | .byte v => v
  | .opened o => o.value
  | .kept => old

theorem wf_parts {m : Memory} (h : m.wf = true) :
    (m.cells.map Prod.fst).Pairwise (· < ·) ∧ (m.opens.map Prod.fst).Pairwise (· < ·) ∧
      (∀ c ∈ m.cells, c.2 ≠ Memory.unlisted) ∧ ∀ o ∈ m.opens, lookup o.1 m.cells = none := by
  simp only [Memory.wf, Bool.and_eq_true, rising_iff, List.all_eq_true, bne_iff_ne, Option.isNone_iff_eq_none] at h
  exact ⟨h.1.1.1, h.1.1.2, h.1.2, h.2⟩

theorem wf_of_parts {m : Memory} (h₁ : (m.cells.map Prod.fst).Pairwise (· < ·))
    (h₂ : (m.opens.map Prod.fst).Pairwise (· < ·)) (h₃ : ∀ c ∈ m.cells, c.2 ≠ Memory.unlisted)
    (h₄ : ∀ o ∈ m.opens, lookup o.1 m.cells = none) : m.wf = true := by
  simp only [Memory.wf, Bool.and_eq_true, rising_iff, List.all_eq_true, bne_iff_ne, Option.isNone_iff_eq_none]
  exact ⟨⟨⟨h₁, h₂⟩, h₃⟩, h₄⟩

/-- A store leaves every other address alone. -/
theorem byte_store_ne (m : Memory) {a b : Nat} (c : Stored) (h : b ≠ a) : (m.store a c).byte b = m.byte b := by
  cases c <;> simp [Memory.store, Memory.byte, lookup_setEntry_ne _ _ h]

theorem peek_store_ne (m : Memory) {a b : Nat} (c : Stored) (mask : Byte) (h : b ≠ a) :
    (m.store a c).peek b mask = m.peek b mask := by
  cases c <;> simp [Memory.store, Memory.peek, lookup_setEntry_ne _ _ h]

/-- A stored byte reads as what was stored. -/
theorem byte_store_self {m : Memory} (h : m.wf = true) (a : Nat) (c : Stored) :
    (m.store a c).byte a = storedValue (m.byte a) c := by
  obtain ⟨h₁, h₂, -, -⟩ := wf_parts h
  cases c with
  | byte v =>
    simp only [Memory.store, Memory.byte, lookup_setEntry_none _ _ h₂, storedValue]
    by_cases hv : v = Memory.unlisted
    · simp [hv, lookup_setEntry_none _ _ h₁]
    · simp [hv, lookup_setEntry_some]
  | opened o => simp [Memory.store, Memory.byte, lookup_setEntry_some, storedValue]
  | kept => rfl

/-- A store keeps the canonical form. -/
theorem wf_store {m : Memory} (h : m.wf = true) (a : Nat) (c : Stored) : (m.store a c).wf = true := by
  obtain ⟨h₁, h₂, h₃, h₄⟩ := wf_parts h
  cases c with
  | byte v =>
    refine wf_of_parts (rising_setEntry _ _ _ h₁) (rising_setEntry _ _ _ h₂) (fun c hc => ?_) fun o ho => ?_
    · rcases mem_setEntry _ _ _ _ hc with ⟨-, hv⟩ | hc
      · split at hv
        · exact absurd hv (by simp)
        · simp only [Option.some.injEq] at hv
          rw [← hv]
          assumption
      · exact h₃ c hc
    · rcases mem_setEntry _ _ _ _ ho with ⟨-, hv⟩ | ho'
      · exact absurd hv (by simp)
      · have hne : o.1 ≠ a := by
          rintro rfl
          have hr := rising_setEntry o.1 none m.opens h₂
          have hn := lookup_setEntry_none o.1 m.opens h₂
          have : ∀ (l : List (Nat × OpenByte)), o ∈ l → lookup o.1 l ≠ none := by
            intro l hl
            induction l with
            | nil => simp at hl
            | cons x xs ih =>
              rcases List.mem_cons.mp hl with rfl | hl
              · simp [lookup]
              · simp only [lookup]
                split
                · simp
                · exact ih hl
          exact this _ ho hn
        show lookup o.1 (setEntry a _ m.cells) = none
        rw [lookup_setEntry_ne _ _ hne]
        exact h₄ o ho'
  | opened x =>
    refine wf_of_parts (rising_setEntry _ _ _ h₁) (rising_setEntry _ _ _ h₂) (fun c hc => ?_) fun o ho => ?_
    · rcases mem_setEntry _ _ _ _ hc with ⟨-, hv⟩ | hc
      · exact absurd hv (by simp)
      · exact h₃ c hc
    · show lookup o.1 (setEntry a none m.cells) = none
      by_cases hne : o.1 = a
      · rw [hne]
        exact lookup_setEntry_none _ _ h₁
      · rw [lookup_setEntry_ne _ _ hne]
        rcases mem_setEntry _ _ _ _ ho with ⟨hk, -⟩ | ho'
        · exact absurd hk hne
        · exact h₄ o ho'
  | kept => exact h

/-- `peek` selects bits of the byte. -/
theorem peek_eq (m : Memory) (a : Nat) (mask : Byte) : m.peek a mask = m.byte a &&& mask := by
  unfold Memory.peek Memory.byte
  split
  · next draw known bits h =>
    simp only [h]
    split
    · next hm =>
      ext i hi
      have hb := congrArg (fun v : Byte => v[i]) hm
      simp only [BitVec.getElem_and, BitVec.getElem_not] at hb
      simp only [OpenByte.value, BitVec.getElem_and, BitVec.getElem_or, BitVec.getElem_not]
      cases hk : known[i] <;> cases hk' : mask[i] <;> simp_all
    · rfl
  · next h => simp [h]
  · next h => simp [h]

/-! ## A run of bytes -/

/-- `storeFirst` leaves every other address alone. -/
theorem byte_storeFirst_ne (addr : Nat → Nat) (image : Nat → Stored) (n : Nat) (m : Memory) (a : Nat)
    (h : ∀ i < n, a ≠ addr i) : (m.storeFirst addr image n).byte a = m.byte a := by
  induction n generalizing m with
  | zero => rfl
  | succ n ih =>
    rw [Memory.storeFirst, ih _ fun i hi => h i (by omega), byte_store_ne _ _ (h n (by omega))]

/-- `storeFirst` leaves alone what it keeps, too. -/
theorem byte_storeFirst_kept (addr : Nat → Nat) (image : Nat → Stored) (n : Nat) (m : Memory) (a : Nat)
    (h : ∀ i < n, a = addr i → image i = .kept) : (m.storeFirst addr image n).byte a = m.byte a := by
  induction n generalizing m with
  | zero => rfl
  | succ n ih =>
    rw [Memory.storeFirst, ih _ fun i hi => h i (by omega)]
    by_cases ha : a = addr n
    · rw [h n (by omega) ha]
      rfl
    · exact byte_store_ne _ _ ha

theorem wf_storeFirst {m : Memory} (h : m.wf = true) (addr : Nat → Nat) (image : Nat → Stored) (n : Nat) :
    (m.storeFirst addr image n).wf = true := by
  induction n generalizing m with
  | zero => exact h
  | succ n ih => exact ih (wf_store h _ _)

/-- Where the addresses differ, each byte reads as its content. -/
theorem byte_storeFirst_self {m : Memory} (h : m.wf = true) (addr : Nat → Nat) (image : Nat → Stored) (n : Nat)
    (hd : ∀ i < n, ∀ j < n, addr i = addr j → i = j) (i : Nat) (hi : i < n) :
    (m.storeFirst addr image n).byte (addr i) = storedValue (m.byte (addr i)) (image i) := by
  induction n generalizing m with
  | zero => omega
  | succ n ih =>
    rw [Memory.storeFirst]
    by_cases hin : i = n
    · subst hin
      rw [byte_storeFirst_ne _ _ _ _ _ fun j hj he => ?_, byte_store_self h]
      have := hd i (by omega) j (by omega) he
      omega
    · rw [ih (wf_store h _ _) (fun a ha b hb => hd a (by omega) b (by omega)) (by omega), byte_store_ne]
      intro he
      exact hin (hd i hi n (by omega) he)

/-! ## Fields -/

/-- A field depends on its bytes only. -/
theorem field_congr (m m' : Memory) (addr addr' : Nat → Nat) (lo n : Nat)
    (h : ∀ k < n, m.byte (addr (lo + k)) = m'.byte (addr' (lo + k))) : m.field addr lo n = m'.field addr' lo n := by
  induction n generalizing lo with
  | zero => rfl
  | succ n ih =>
    rw [Memory.field, Memory.field, ih (lo + 1) fun k hk => ?_]
    · have := h 0 (by omega)
      simp only [Nat.add_zero] at this
      rw [this]
    · have := h (k + 1) (by omega)
      rwa [show lo + 1 + k = lo + (k + 1) by omega]

theorem byteOf_toNat {w : Nat} (v : BitVec w) (k : Nat) : (byteOf v k).toNat = v.toNat / 256 ^ k % 256 := by
  simp [byteOf, BitVec.extractLsb'_toNat, Nat.shiftRight_eq_div_pow, Nat.pow_mul]

theorem field_of_bytes_aux {w : Nat} (v : BitVec w) (m : Memory) (addr : Nat → Nat) (n : Nat) :
    ∀ lo k₀, (∀ k < n, m.byte (addr (lo + k)) = byteOf v (k₀ + k)) →
      m.field addr lo n = v.toNat / 256 ^ k₀ % 256 ^ n := by
  induction n with
  | zero => intro lo k₀ _; simp [Memory.field, Nat.mod_one]
  | succ n ih =>
    intro lo k₀ h
    have h0 := h 0 (by omega)
    simp only [Nat.add_zero] at h0
    rw [Memory.field, h0, byteOf_toNat, ih (lo + 1) (k₀ + 1) fun k hk => ?_]
    · rw [Nat.pow_succ 256 k₀, ← Nat.div_div_eq_div_mul, Nat.pow_succ', Nat.mod_mul]
    · have := h (k + 1) (by omega)
      rwa [show lo + 1 + k = lo + (k + 1) by omega, show k₀ + 1 + k = k₀ + (k + 1) by omega]

/-- A field whose bytes are those of a value is the value, as far as it is wide. -/
theorem field_of_bytes {w : Nat} (v : BitVec w) (m : Memory) (addr : Nat → Nat) (lo n : Nat)
    (h : ∀ k < n, m.byte (addr (lo + k)) = byteOf v k) : m.field addr lo n = v.toNat % 256 ^ n := by
  have := field_of_bytes_aux v m addr n lo 0 (by simpa using h)
  simpa using this

theorem field_lt (m : Memory) (addr : Nat → Nat) (lo n : Nat) : m.field addr lo n < 256 ^ n := by
  induction n generalizing lo with
  | zero => simp [Memory.field]
  | succ n ih =>
    have h₁ := ih (lo + 1)
    have h₂ := (m.byte (addr lo)).isLt
    rw [Memory.field, Nat.pow_succ']
    omega

end Sys2Proof.Laws
end

