-- ==== Sys2Proof/Laws/State.lean ====
section
/-! SUPPORT. One lemma per field of State and per update the meanings make: what the field holds after it. -/

namespace Sys2Proof.Laws

open Sys2Proof.Machine

/-! ## fxsaveNext -/

@[simp] theorem fxsaveNext_regs (s : State) (addr : Nat → Nat) (pc : Word) :
    (fxsaveNext s addr pc).regs = s.regs := rfl

@[simp] theorem fxsaveNext_eip (s : State) (addr : Nat → Nat) (pc : Word) :
    (fxsaveNext s addr pc).eip = pc := rfl

@[simp] theorem fxsaveNext_eflags (s : State) (addr : Nat → Nat) (pc : Word) :
    (fxsaveNext s addr pc).eflags = s.eflags := rfl

@[simp] theorem fxsaveNext_cr0 (s : State) (addr : Nat → Nat) (pc : Word) :
    (fxsaveNext s addr pc).cr0 = s.cr0 := rfl

@[simp] theorem fxsaveNext_cpl (s : State) (addr : Nat → Nat) (pc : Word) :
    (fxsaveNext s addr pc).cpl = s.cpl := rfl

@[simp] theorem fxsaveNext_cs (s : State) (addr : Nat → Nat) (pc : Word) :
    (fxsaveNext s addr pc).cs = s.cs := rfl

@[simp] theorem fxsaveNext_ss (s : State) (addr : Nat → Nat) (pc : Word) :
    (fxsaveNext s addr pc).ss = s.ss := rfl

@[simp] theorem fxsaveNext_ds (s : State) (addr : Nat → Nat) (pc : Word) :
    (fxsaveNext s addr pc).ds = s.ds := rfl

@[simp] theorem fxsaveNext_es (s : State) (addr : Nat → Nat) (pc : Word) :
    (fxsaveNext s addr pc).es = s.es := rfl

@[simp] theorem fxsaveNext_fs (s : State) (addr : Nat → Nat) (pc : Word) :
    (fxsaveNext s addr pc).fs = s.fs := rfl

@[simp] theorem fxsaveNext_gs (s : State) (addr : Nat → Nat) (pc : Word) :
    (fxsaveNext s addr pc).gs = s.gs := rfl

@[simp] theorem fxsaveNext_sysenterCs (s : State) (addr : Nat → Nat) (pc : Word) :
    (fxsaveNext s addr pc).sysenterCs = s.sysenterCs := rfl

@[simp] theorem fxsaveNext_sysenterEsp (s : State) (addr : Nat → Nat) (pc : Word) :
    (fxsaveNext s addr pc).sysenterEsp = s.sysenterEsp := rfl

@[simp] theorem fxsaveNext_sysenterEip (s : State) (addr : Nat → Nat) (pc : Word) :
    (fxsaveNext s addr pc).sysenterEip = s.sysenterEip := rfl

@[simp] theorem fxsaveNext_fcw (s : State) (addr : Nat → Nat) (pc : Word) :
    (fxsaveNext s addr pc).fcw = s.fcw := rfl

@[simp] theorem fxsaveNext_fsw (s : State) (addr : Nat → Nat) (pc : Word) :
    (fxsaveNext s addr pc).fsw = s.fsw := rfl

@[simp] theorem fxsaveNext_ftw (s : State) (addr : Nat → Nat) (pc : Word) :
    (fxsaveNext s addr pc).ftw = s.ftw := rfl

@[simp] theorem fxsaveNext_fop (s : State) (addr : Nat → Nat) (pc : Word) :
    (fxsaveNext s addr pc).fop = s.fop := rfl

@[simp] theorem fxsaveNext_fipOff (s : State) (addr : Nat → Nat) (pc : Word) :
    (fxsaveNext s addr pc).fipOff = s.fipOff := rfl

@[simp] theorem fxsaveNext_fipSel (s : State) (addr : Nat → Nat) (pc : Word) :
    (fxsaveNext s addr pc).fipSel = s.fipSel := rfl

@[simp] theorem fxsaveNext_fdpOff (s : State) (addr : Nat → Nat) (pc : Word) :
    (fxsaveNext s addr pc).fdpOff = s.fdpOff := rfl

@[simp] theorem fxsaveNext_fdpSel (s : State) (addr : Nat → Nat) (pc : Word) :
    (fxsaveNext s addr pc).fdpSel = s.fdpSel := rfl

@[simp] theorem fxsaveNext_fr (s : State) (addr : Nat → Nat) (pc : Word) :
    (fxsaveNext s addr pc).fr = s.fr := rfl

@[simp] theorem fxsaveNext_fpPrevNoMem (s : State) (addr : Nat → Nat) (pc : Word) :
    (fxsaveNext s addr pc).fpPrevNoMem = false := rfl

@[simp] theorem fxsaveNext_mem (s : State) (addr : Nat → Nat) (pc : Word) :
    (fxsaveNext s addr pc).mem = s.mem.storeFirst addr (fxsaveByte s addr) operandSize := rfl

@[simp] theorem fxsaveNext_savedBytes (s : State) (addr : Nat → Nat) (pc : Word) :
    (fxsaveNext s addr pc).savedBytes = noteSaved s addr operandSize s.savedBytes := rfl

@[simp] theorem fxsaveNext_draws (s : State) (addr : Nat → Nat) (pc : Word) :
    (fxsaveNext s addr pc).draws = s.draws + operandSize := rfl

@[simp] theorem fxsaveNext_params (s : State) (addr : Nat → Nat) (pc : Word) :
    (fxsaveNext s addr pc).params = s.params := rfl

/-! ## fxrstorNext -/

@[simp] theorem fxrstorNext_regs (s : State) (addr : Nat → Nat) (pc : Word) :
    (fxrstorNext s addr pc).regs = s.regs := rfl

@[simp] theorem fxrstorNext_eip (s : State) (addr : Nat → Nat) (pc : Word) :
    (fxrstorNext s addr pc).eip = pc := rfl

@[simp] theorem fxrstorNext_eflags (s : State) (addr : Nat → Nat) (pc : Word) :
    (fxrstorNext s addr pc).eflags = s.eflags := rfl

@[simp] theorem fxrstorNext_cr0 (s : State) (addr : Nat → Nat) (pc : Word) :
    (fxrstorNext s addr pc).cr0 = s.cr0 := rfl

@[simp] theorem fxrstorNext_cpl (s : State) (addr : Nat → Nat) (pc : Word) :
    (fxrstorNext s addr pc).cpl = s.cpl := rfl

@[simp] theorem fxrstorNext_cs (s : State) (addr : Nat → Nat) (pc : Word) :
    (fxrstorNext s addr pc).cs = s.cs := rfl

@[simp] theorem fxrstorNext_ss (s : State) (addr : Nat → Nat) (pc : Word) :
    (fxrstorNext s addr pc).ss = s.ss := rfl

@[simp] theorem fxrstorNext_ds (s : State) (addr : Nat → Nat) (pc : Word) :
    (fxrstorNext s addr pc).ds = s.ds := rfl

@[simp] theorem fxrstorNext_es (s : State) (addr : Nat → Nat) (pc : Word) :
    (fxrstorNext s addr pc).es = s.es := rfl

@[simp] theorem fxrstorNext_fs (s : State) (addr : Nat → Nat) (pc : Word) :
    (fxrstorNext s addr pc).fs = s.fs := rfl

@[simp] theorem fxrstorNext_gs (s : State) (addr : Nat → Nat) (pc : Word) :
    (fxrstorNext s addr pc).gs = s.gs := rfl

@[simp] theorem fxrstorNext_sysenterCs (s : State) (addr : Nat → Nat) (pc : Word) :
    (fxrstorNext s addr pc).sysenterCs = s.sysenterCs := rfl

@[simp] theorem fxrstorNext_sysenterEsp (s : State) (addr : Nat → Nat) (pc : Word) :
    (fxrstorNext s addr pc).sysenterEsp = s.sysenterEsp := rfl

@[simp] theorem fxrstorNext_sysenterEip (s : State) (addr : Nat → Nat) (pc : Word) :
    (fxrstorNext s addr pc).sysenterEip = s.sysenterEip := rfl

@[simp] theorem fxrstorNext_fcw (s : State) (addr : Nat → Nat) (pc : Word) :
    (fxrstorNext s addr pc).fcw = BitVec.ofNat 16 (s.mem.field addr 0 2) := rfl

@[simp] theorem fxrstorNext_fsw (s : State) (addr : Nat → Nat) (pc : Word) :
    (fxrstorNext s addr pc).fsw = imageFsw s.mem addr := rfl

@[simp] theorem fxrstorNext_ftw (s : State) (addr : Nat → Nat) (pc : Word) :
    (fxrstorNext s addr pc).ftw = rebuiltFtw (s.mem.byte (addr 4)) (imageRegs s.mem addr) := rfl

@[simp] theorem fxrstorNext_fop (s : State) (addr : Nat → Nat) (pc : Word) :
    (fxrstorNext s addr pc).fop = imageFop s.mem addr := rfl

@[simp] theorem fxrstorNext_fipOff (s : State) (addr : Nat → Nat) (pc : Word) :
    (fxrstorNext s addr pc).fipOff = imageOffset s addr 8 s.draws := rfl

@[simp] theorem fxrstorNext_fipSel (s : State) (addr : Nat → Nat) (pc : Word) :
    (fxrstorNext s addr pc).fipSel = BitVec.ofNat 16 (s.mem.field addr 12 2) := rfl

@[simp] theorem fxrstorNext_fdpOff (s : State) (addr : Nat → Nat) (pc : Word) :
    (fxrstorNext s addr pc).fdpOff = imageOffset s addr 16 (s.draws + 1) := rfl

@[simp] theorem fxrstorNext_fdpSel (s : State) (addr : Nat → Nat) (pc : Word) :
    (fxrstorNext s addr pc).fdpSel = BitVec.ofNat 16 (s.mem.field addr 20 2) := rfl

@[simp] theorem fxrstorNext_fr (s : State) (addr : Nat → Nat) (pc : Word) :
    (fxrstorNext s addr pc).fr = imageRegs s.mem addr := rfl

@[simp] theorem fxrstorNext_fpPrevNoMem (s : State) (addr : Nat → Nat) (pc : Word) :
    (fxrstorNext s addr pc).fpPrevNoMem = false := rfl

@[simp] theorem fxrstorNext_mem (s : State) (addr : Nat → Nat) (pc : Word) :
    (fxrstorNext s addr pc).mem = s.mem := rfl

@[simp] theorem fxrstorNext_savedBytes (s : State) (addr : Nat → Nat) (pc : Word) :
    (fxrstorNext s addr pc).savedBytes = s.savedBytes := rfl

@[simp] theorem fxrstorNext_draws (s : State) (addr : Nat → Nat) (pc : Word) :
    (fxrstorNext s addr pc).draws = s.draws + 2 := rfl

@[simp] theorem fxrstorNext_params (s : State) (addr : Nat → Nat) (pc : Word) :
    (fxrstorNext s addr pc).params = s.params := rfl

/-! ## sysenterNext -/

@[simp] theorem sysenterNext_regs (s : State) :
    (sysenterNext s).regs = { s.regs with esp := s.sysenterEsp.setWidth 32 } := rfl

@[simp] theorem sysenterNext_eip (s : State) :
    (sysenterNext s).eip = s.sysenterEip.setWidth 32 := rfl

@[simp] theorem sysenterNext_eflags (s : State) :
    (sysenterNext s).eflags = clearVmIf s.eflags := rfl

@[simp] theorem sysenterNext_cr0 (s : State) :
    (sysenterNext s).cr0 = s.cr0 := rfl

@[simp] theorem sysenterNext_cpl (s : State) :
    (sysenterNext s).cpl = 0 := rfl

@[simp] theorem sysenterNext_cs (s : State) :
    (sysenterNext s).cs = flatCode (kernelCodeSelector s) 0 := rfl

@[simp] theorem sysenterNext_ss (s : State) :
    (sysenterNext s).ss = flatStack (kernelStackSelector s) 0 := rfl

@[simp] theorem sysenterNext_ds (s : State) :
    (sysenterNext s).ds = s.ds := rfl

@[simp] theorem sysenterNext_es (s : State) :
    (sysenterNext s).es = s.es := rfl

@[simp] theorem sysenterNext_fs (s : State) :
    (sysenterNext s).fs = s.fs := rfl

@[simp] theorem sysenterNext_gs (s : State) :
    (sysenterNext s).gs = s.gs := rfl

@[simp] theorem sysenterNext_sysenterCs (s : State) :
    (sysenterNext s).sysenterCs = s.sysenterCs := rfl

@[simp] theorem sysenterNext_sysenterEsp (s : State) :
    (sysenterNext s).sysenterEsp = s.sysenterEsp := rfl

@[simp] theorem sysenterNext_sysenterEip (s : State) :
    (sysenterNext s).sysenterEip = s.sysenterEip := rfl

@[simp] theorem sysenterNext_fcw (s : State) :
    (sysenterNext s).fcw = s.fcw := rfl

@[simp] theorem sysenterNext_fsw (s : State) :
    (sysenterNext s).fsw = s.fsw := rfl

@[simp] theorem sysenterNext_ftw (s : State) :
    (sysenterNext s).ftw = s.ftw := rfl

@[simp] theorem sysenterNext_fop (s : State) :
    (sysenterNext s).fop = s.fop := rfl

@[simp] theorem sysenterNext_fipOff (s : State) :
    (sysenterNext s).fipOff = s.fipOff := rfl

@[simp] theorem sysenterNext_fipSel (s : State) :
    (sysenterNext s).fipSel = s.fipSel := rfl

@[simp] theorem sysenterNext_fdpOff (s : State) :
    (sysenterNext s).fdpOff = s.fdpOff := rfl

@[simp] theorem sysenterNext_fdpSel (s : State) :
    (sysenterNext s).fdpSel = s.fdpSel := rfl

@[simp] theorem sysenterNext_fr (s : State) :
    (sysenterNext s).fr = s.fr := rfl

@[simp] theorem sysenterNext_fpPrevNoMem (s : State) :
    (sysenterNext s).fpPrevNoMem = false := rfl

@[simp] theorem sysenterNext_mem (s : State) :
    (sysenterNext s).mem = s.mem := rfl

@[simp] theorem sysenterNext_savedBytes (s : State) :
    (sysenterNext s).savedBytes = s.savedBytes := rfl

@[simp] theorem sysenterNext_draws (s : State) :
    (sysenterNext s).draws = s.draws := rfl

@[simp] theorem sysenterNext_params (s : State) :
    (sysenterNext s).params = s.params := rfl

/-! ## sysexitNext -/

@[simp] theorem sysexitNext_regs (s : State) :
    (sysexitNext s).regs = { s.regs with esp := s.regs.ecx } := rfl

@[simp] theorem sysexitNext_eip (s : State) :
    (sysexitNext s).eip = s.regs.edx := rfl

@[simp] theorem sysexitNext_eflags (s : State) :
    (sysexitNext s).eflags = s.eflags := rfl

@[simp] theorem sysexitNext_cr0 (s : State) :
    (sysexitNext s).cr0 = s.cr0 := rfl

@[simp] theorem sysexitNext_cpl (s : State) :
    (sysexitNext s).cpl = 3 := rfl

@[simp] theorem sysexitNext_cs (s : State) :
    (sysexitNext s).cs = flatCode (userCodeSelector s) 3 := rfl

@[simp] theorem sysexitNext_ss (s : State) :
    (sysexitNext s).ss = flatStack (userStackSelector s) 3 := rfl

@[simp] theorem sysexitNext_ds (s : State) :
    (sysexitNext s).ds = s.ds := rfl

@[simp] theorem sysexitNext_es (s : State) :
    (sysexitNext s).es = s.es := rfl

@[simp] theorem sysexitNext_fs (s : State) :
    (sysexitNext s).fs = s.fs := rfl

@[simp] theorem sysexitNext_gs (s : State) :
    (sysexitNext s).gs = s.gs := rfl

@[simp] theorem sysexitNext_sysenterCs (s : State) :
    (sysexitNext s).sysenterCs = s.sysenterCs := rfl

@[simp] theorem sysexitNext_sysenterEsp (s : State) :
    (sysexitNext s).sysenterEsp = s.sysenterEsp := rfl

@[simp] theorem sysexitNext_sysenterEip (s : State) :
    (sysexitNext s).sysenterEip = s.sysenterEip := rfl

@[simp] theorem sysexitNext_fcw (s : State) :
    (sysexitNext s).fcw = s.fcw := rfl

@[simp] theorem sysexitNext_fsw (s : State) :
    (sysexitNext s).fsw = s.fsw := rfl

@[simp] theorem sysexitNext_ftw (s : State) :
    (sysexitNext s).ftw = s.ftw := rfl

@[simp] theorem sysexitNext_fop (s : State) :
    (sysexitNext s).fop = s.fop := rfl

@[simp] theorem sysexitNext_fipOff (s : State) :
    (sysexitNext s).fipOff = s.fipOff := rfl

@[simp] theorem sysexitNext_fipSel (s : State) :
    (sysexitNext s).fipSel = s.fipSel := rfl

@[simp] theorem sysexitNext_fdpOff (s : State) :
    (sysexitNext s).fdpOff = s.fdpOff := rfl

@[simp] theorem sysexitNext_fdpSel (s : State) :
    (sysexitNext s).fdpSel = s.fdpSel := rfl

@[simp] theorem sysexitNext_fr (s : State) :
    (sysexitNext s).fr = s.fr := rfl

@[simp] theorem sysexitNext_fpPrevNoMem (s : State) :
    (sysexitNext s).fpPrevNoMem = false := rfl

@[simp] theorem sysexitNext_mem (s : State) :
    (sysexitNext s).mem = s.mem := rfl

@[simp] theorem sysexitNext_savedBytes (s : State) :
    (sysexitNext s).savedBytes = s.savedBytes := rfl

@[simp] theorem sysexitNext_draws (s : State) :
    (sysexitNext s).draws = s.draws := rfl

@[simp] theorem sysexitNext_params (s : State) :
    (sysexitNext s).params = s.params := rfl

end Sys2Proof.Laws
end

