-- ==== Sys2Proof/Laws/Exec.lean ====
section
/-! SUPPORT. What each shared operation and each meaning can do, said once: the cases in which FXSAVE and FXRSTOR stop,
the inversion of each meaning, and of the step. -/

namespace Sys2Proof.Laws

open Sys2Proof.Machine

theorem operandSize_eq : operandSize = 512 := by
  unfold operandSize
  rfl

/-! ## Exceptions -/

/-- `FaultChoice` picks one of the exceptions it is given. -/
theorem chooseFault_mem (n : Nat) (f : Fault) (fs : List Fault) : chooseFault n f fs ∈ f :: fs := by
  unfold chooseFault
  split
  · simp
  · have hlt : Config.faultChoice n % (fs.length + 1) < (f :: fs).length := by
      simpa using Nat.mod_lt _ (Nat.succ_pos _)
    rw [List.getD_eq_getElem _ _ hlt]
    exact List.getElem_mem hlt

theorem mem_faultIf {c : Bool} {f g : Fault} : g ∈ faultIf c f ↔ c = true ∧ g = f := by
  cases c <;> simp [faultIf]

theorem faultIf_eq_nil {c : Bool} {f : Fault} : faultIf c f = [] ↔ c = false := by
  cases c <;> simp [faultIf]

theorem pageFaultAt_eq_none {s : State} {seg : SegName} {off : Word} {w : Bool} {i : Nat} :
    pageFaultAt s seg off w i = none ↔ ∃ phys, translateLinear s (linearAddress (s.seg seg) off i) w = .to phys := by
  unfold pageFaultAt
  split <;> simp [*]

/-- Every exception that applies, one by one. -/
theorem mem_applicableFaults {s : State} {pre : List Prefix} {seg : SegName} {off : Word} {w : Bool} {f : Fault} :
    f ∈ applicableFaults s pre seg off w ↔
      (Prefix.lock ∈ pre ∧ f = .invalidOpcode s.eip) ∨
      ((s.crEM = true ∨ s.crTS = true) ∧ f = .deviceNotAvailable s.eip) ∨
      (outsideSegment s seg off w = true ∧ f = limitFault seg s.eip) ∨
      (outside64K s off = true ∧ f = .interrupt13 s.eip) ∨
      (misaligned (s.seg seg) off = true ∧ f = .generalProtection s.eip) ∨
      (∃ i < 512, ∃ code, translateLinear s (linearAddress (s.seg seg) off i) w = .fault code ∧ f = .pageFault code s.eip) ∨
      ((misaligned (s.seg seg) off = true ∧ s.alignmentCheckOn = true) ∧ f = .alignmentCheck s.eip) := by
  have hpf : (∃ i, i < 512 ∧ pageFaultAt s seg off w i = some f) ↔
      ∃ i < 512, ∃ code, translateLinear s (linearAddress (s.seg seg) off i) w = .fault code ∧
        f = .pageFault code s.eip := by
    refine exists_congr fun i => and_congr_right fun _ => ?_
    unfold pageFaultAt
    cases translateLinear s (linearAddress (s.seg seg) off i) w <;> simp [eq_comm]
  simp only [applicableFaults, List.mem_append, mem_faultIf, List.mem_filterMap, List.mem_range, operandSize_eq, hpf,
    List.contains_eq_mem, decide_eq_true_eq, Bool.or_eq_true, Bool.and_eq_true, or_assoc]

/-- No exception applies exactly when each check passes. -/
theorem applicableFaults_eq_nil {s : State} {pre : List Prefix} {seg : SegName} {off : Word} {w : Bool} :
    applicableFaults s pre seg off w = [] ↔
      Prefix.lock ∉ pre ∧ (s.crEM = false ∧ s.crTS = false) ∧ outsideSegment s seg off w = false ∧
        outside64K s off = false ∧ misaligned (s.seg seg) off = false ∧
        ∀ i < 512, ∃ phys, translateLinear s (linearAddress (s.seg seg) off i) w = .to phys := by
  simp only [applicableFaults, List.append_eq_nil_iff, faultIf_eq_nil, List.filterMap_eq_nil_iff, List.mem_range,
    operandSize_eq, pageFaultAt_eq_none, List.contains_eq_mem, decide_eq_false_iff_not, Bool.or_eq_false_iff,
    Bool.and_eq_false_iff, and_assoc]
  constructor
  · rintro ⟨h₁, h₂, h₃, h₄, h₅, h₆, h₇, -⟩
    exact ⟨h₁, h₂, h₃, h₄, h₅, h₆, h₇⟩
  · rintro ⟨h₁, h₂, h₃, h₄, h₅, h₆, h₇⟩
    exact ⟨h₁, h₂, h₃, h₄, h₅, h₆, h₇, .inl h₆⟩

/-- Alignment over an aligned base is alignment of the offset. -/
theorem misaligned_eq_false {r : SegReg} {off : Word} (h : r.base.toNat % 16 = 0) :
    misaligned r off = false ↔ off.toNat % 16 = 0 := by
  simp only [misaligned, bne_eq_false_iff_eq]
  omega

theorem outsideSegment_eq_false {s : State} {seg : SegName} {off : Word} {w : Bool} :
    outsideSegment s seg off w = false ↔
      (s.mode = .protectedMode → off.toNat ≤ 0xFFFFFE00 ∧ segCheck s.params seg (s.seg seg) off w = true) := by
  unfold outsideSegment
  by_cases hm : s.mode = .protectedMode <;> simp [hm]

theorem outside64K_eq_false {s : State} {off : Word} :
    outside64K s off = false ↔ (s.mode ≠ .protectedMode → off.toNat + 511 ≤ 0xFFFF) := by
  unfold outside64K
  by_cases hm : s.mode = .protectedMode <;> simp [hm, operandSize_eq]

theorem hasReservedPrefix_eq_false {pre : List Prefix} : hasReservedPrefix pre = false ↔
    Prefix.rep ∉ pre ∧ Prefix.repne ∉ pre ∧ Prefix.operandSize ∉ pre := by
  simp [hasReservedPrefix, and_assoc]

/-- Nothing stops FXSAVE or FXRSTOR before its operation exactly when the prefixes, the part and the segment's base have a
meaning and no exception applies. -/
theorem fxStop_eq_none {pre : List Prefix} {op : MemOp} {w : Bool} {s : State} :
    fxStop pre op w s = none ↔ hasReservedPrefix pre = false ∧ s.params.hasFxsr = true ∧
      (s.seg (operandSegment s pre op)).base.toNat % 16 = 0 ∧
      applicableFaults s pre (operandSegment s pre op) (operandOffset s op) w = [] := by
  unfold fxStop
  by_cases h₁ : hasReservedPrefix pre = true
  · simp [h₁]
  · by_cases h₂ : s.params.hasFxsr = true
    · by_cases h₃ : (s.seg (operandSegment s pre op)).base.toNat % 16 = 0
      · simp only [h₁, h₂, h₃]
        cases applicableFaults s pre (operandSegment s pre op) (operandOffset s op) w <;> simp
      · simp [h₁, h₂, h₃]
    · simp [h₁, h₂]

/-- The operand can be accessed exactly when nothing stops FXSAVE or FXRSTOR before its operation. -/
theorem fxStop_eq_none_iff {pre : List Prefix} {op : MemOp} {w : Bool} {s : State} :
    fxStop pre op w s = none ↔ OperandAccessible s pre op w := by
  rw [fxStop_eq_none, hasReservedPrefix_eq_false, applicableFaults_eq_nil, outsideSegment_eq_false,
    outside64K_eq_false]
  unfold OperandAccessible
  constructor
  · rintro ⟨⟨h₁, h₂, h₃⟩, h₄, h₅, h₆, ⟨h₇, h₈⟩, h₉, h₁₀, h₁₁, h₁₂⟩
    exact ⟨h₄, h₁, h₂, h₃, h₆, h₇, h₈, h₅, (misaligned_eq_false h₅).mp h₁₁, h₉, h₁₀, h₁₂⟩
  · rintro ⟨h₄, h₁, h₂, h₃, h₆, h₇, h₈, h₅, h₁₁, h₉, h₁₀, h₁₂⟩
    exact ⟨⟨h₁, h₂, h₃⟩, h₄, h₅, h₆, ⟨h₇, h₈⟩, h₉, h₁₀, (misaligned_eq_false h₅).mpr h₁₁, h₁₂⟩

/-- A fault of FXSAVE or FXRSTOR is one of the applicable exceptions (rule R175). -/
theorem fxStop_fault {pre : List Prefix} {op : MemOp} {w : Bool} {s : State} {f : Fault}
    (h : fxStop pre op w s = some (.fault f)) :
    f ∈ applicableFaults s pre (operandSegment s pre op) (operandOffset s op) w := by
  unfold fxStop at h
  split at h
  · simp at h
  · split at h
    · simp at h
    · split at h
      · simp at h
      · split at h
        · next g gs heq =>
          simp only [Option.some.injEq, Stop.fault.injEq] at h
          rw [heq, ← h]
          exact chooseFault_mem _ _ _
        · simp at h

/-- A refusal of FXSAVE or FXRSTOR before its operation, with its condition (rules R92, R6, R65). -/
theorem fxStop_refuse {pre : List Prefix} {op : MemOp} {w : Bool} {s : State} {r : Refusal}
    (h : fxStop pre op w s = some (.refuse r)) :
    (hasReservedPrefix pre = true ∧ r = .reservedPrefix) ∨
    (s.params.hasFxsr = false ∧ r = .fxsrAbsent) ∨
    ((s.seg (operandSegment s pre op)).base.toNat % 16 ≠ 0 ∧ r = .segmentBaseUnaligned) := by
  unfold fxStop at h
  split at h
  · simp_all
  · split at h
    · simp_all
    · split at h
      · simp_all
      · split at h <;> simp at h

/-- Where no situation without meaning holds and some exception applies, one of those that apply is raised. -/
theorem fxStop_of_applicable {pre : List Prefix} {op : MemOp} {w : Bool} {s : State}
    (h₁ : hasReservedPrefix pre = false) (h₂ : s.params.hasFxsr = true)
    (h₃ : (s.seg (operandSegment s pre op)).base.toNat % 16 = 0)
    (h₄ : applicableFaults s pre (operandSegment s pre op) (operandOffset s op) w ≠ []) :
    ∃ f ∈ applicableFaults s pre (operandSegment s pre op) (operandOffset s op) w,
      fxStop pre op w s = some (.fault f) := by
  unfold fxStop
  simp only [h₁, h₂, h₃]
  cases heq : applicableFaults s pre (operandSegment s pre op) (operandOffset s op) w with
  | nil => exact absurd heq h₄
  | cons f fs => exact ⟨_, chooseFault_mem s.draws f fs, by simp⟩

/-! ## The next program counter -/

theorem nextPc_of_lt {s : State} {n : Nat} (h : s.eip.toNat + n < 2 ^ 32) :
    nextPc s n = some (s.eip + BitVec.ofNat 32 n) := if_pos h

theorem nextPc_eq_some {s : State} {n : Nat} {pc : Word} (h : nextPc s n = some pc) :
    s.eip.toNat + n < 2 ^ 32 ∧ pc = s.eip + BitVec.ofNat 32 n := by
  unfold nextPc at h
  split at h <;> simp_all

/-! ## The meanings -/

/-- Everything FXSAVE can do when it completes. -/
theorem execFxsave_next {pre : List Prefix} {op : MemOp} {s t : State} (h : execFxsave pre op s = .next t) :
    OperandAccessible s pre op true ∧ s.eip.toNat + (Instr.fxsave pre op).length < 2 ^ 32 ∧
      t = fxsaveNext s (operandAddress s pre op true) (s.eip + BitVec.ofNat 32 (Instr.fxsave pre op).length) := by
  unfold execFxsave at h
  split at h
  · next stop _ => cases stop <;> simp [Stop.outcome] at h
  · next hs =>
    split at h
    · next pc hp =>
      obtain ⟨h₁, rfl⟩ := nextPc_eq_some hp
      exact ⟨fxStop_eq_none_iff.mp hs, h₁, (Host.Outcome.next.inj h).symm⟩
    · simp at h

/-- FXSAVE completes when its operand can be accessed and `pc + length` stays below 2^32. -/
theorem execFxsave_of_accessible {pre : List Prefix} {op : MemOp} {s : State} (h : OperandAccessible s pre op true)
    (hp : s.eip.toNat + (Instr.fxsave pre op).length < 2 ^ 32) :
    execFxsave pre op s = .next (fxsaveNext s (operandAddress s pre op true)
      (s.eip + BitVec.ofNat 32 (Instr.fxsave pre op).length)) := by
  unfold execFxsave
  rw [fxStop_eq_none_iff.mpr h, nextPc_of_lt hp]
  rfl

/-- Everything FXRSTOR can do when it completes. -/
theorem execFxrstor_next {pre : List Prefix} {op : MemOp} {s t : State} (h : execFxrstor pre op s = .next t) :
    OperandAccessible s pre op false ∧ s.mem.byte (operandAddress s pre op false 5) = 0#8 ∧
      s.eip.toNat + (Instr.fxrstor pre op).length < 2 ^ 32 ∧
      t = fxrstorNext s (operandAddress s pre op false) (s.eip + BitVec.ofNat 32 (Instr.fxrstor pre op).length) := by
  unfold execFxrstor at h
  split at h
  · next stop _ => cases stop <;> simp [Stop.outcome] at h
  · next hs =>
    split at h
    · next h5 =>
      split at h
      · next pc hp =>
        obtain ⟨h₁, rfl⟩ := nextPc_eq_some hp
        exact ⟨fxStop_eq_none_iff.mp hs, h5, h₁, (Host.Outcome.next.inj h).symm⟩
      · simp at h
    · simp at h

/-- FXRSTOR completes when its operand can be accessed, byte 5 of the image is 0 and `pc + length` stays below 2^32. -/
theorem execFxrstor_of_accessible {pre : List Prefix} {op : MemOp} {s : State} (h : OperandAccessible s pre op false)
    (h5 : s.mem.byte (operandAddress s pre op false 5) = 0#8)
    (hp : s.eip.toNat + (Instr.fxrstor pre op).length < 2 ^ 32) :
    execFxrstor pre op s = .next (fxrstorNext s (operandAddress s pre op false)
      (s.eip + BitVec.ofNat 32 (Instr.fxrstor pre op).length)) := by
  unfold operandAddress at h5
  unfold execFxrstor
  rw [fxStop_eq_none_iff.mpr h, nextPc_of_lt hp]
  simp only [h5, if_true]
  rfl

/-- The conditions under which SYSENTER completes, and the state after it. -/
theorem execSysenter_next_iff {s t : State} : execSysenter s = .next t ↔
    hasFastSyscall s.params = true ∧ s.crPE = true ∧ csMsrZero s = false ∧ selectorSettled s.sysenterCs 8 = true ∧
      above32 s.sysenterEsp = false ∧ above32 s.sysenterEip = false ∧ t = sysenterNext s := by
  unfold execSysenter raise
  cases hasFastSyscall s.params <;> cases s.crPE <;> cases csMsrZero s <;> cases selectorSettled s.sysenterCs 8 <;>
    cases above32 s.sysenterEsp <;> cases above32 s.sysenterEip <;> simp
  exact eq_comm

/-- The conditions under which SYSEXIT completes, and the state after it. -/
theorem execSysexit_next_iff {s t : State} : execSysexit s = .next t ↔
    hasFastSyscall s.params = true ∧ csMsrZero s = false ∧ s.crPE = true ∧ s.privilege = 0#2 ∧
      selectorSettled s.sysenterCs 24 = true ∧ t = sysexitNext s := by
  unfold execSysexit raise
  cases hasFastSyscall s.params <;> cases s.crPE <;> cases csMsrZero s <;> cases selectorSettled s.sysenterCs 24 <;>
    by_cases h : s.privilege = 0#2 <;> simp [h]
  exact eq_comm

/-- The faults of SYSENTER: #GP(0), for CR0.PE clear or SYSENTER_CS_MSR zero (rule R132). -/
theorem execSysenter_fault_iff {s : State} {f : Fault} : execSysenter s = .fault f ↔
    hasFastSyscall s.params = true ∧ (s.crPE = false ∨ csMsrZero s = true) ∧ f = .generalProtection s.eip := by
  unfold execSysenter raise
  cases hasFastSyscall s.params <;> cases s.crPE <;> cases csMsrZero s <;> cases selectorSettled s.sysenterCs 8 <;>
    cases above32 s.sysenterEsp <;> cases above32 s.sysenterEip <;> simp
  all_goals exact eq_comm

/-- The faults of SYSEXIT: #GP(0), for SYSENTER_CS_MSR zero, CR0.PE clear or CPL not 0 (rule R141). -/
theorem execSysexit_fault_iff {s : State} {f : Fault} : execSysexit s = .fault f ↔
    hasFastSyscall s.params = true ∧ (csMsrZero s = true ∨ s.crPE = false ∨ s.privilege ≠ 0#2) ∧
      f = .generalProtection s.eip := by
  unfold execSysexit raise
  cases hasFastSyscall s.params <;> cases s.crPE <;> cases csMsrZero s <;> cases selectorSettled s.sysenterCs 24 <;>
    by_cases h : s.privilege = 0#2 <;> simp [h]
  all_goals exact eq_comm

/-! ## The step -/

/-- A step that answers a next state has decoded an instruction and run it. -/
theorem step_next {s t : State} (h : step s = .next t) :
    ∃ i rest, s.decoded = .ok i rest ∧ exec i s = .next t := by
  unfold step at h
  split at h
  · next i rest hd => exact ⟨i, rest, hd, h⟩
  · simp at h
  · cases hf : fetchStop s (codeRoom s) s.eip.toNat <;> rw [hf] at h <;> simp [Stop.outcome] at h

/-- The four ways a step answers a next state. -/
theorem step_next_cases {s t : State} (h : step s = .next t) :
    (∃ pre op, OperandAccessible s pre op true ∧
      t = fxsaveNext s (operandAddress s pre op true) (s.eip + BitVec.ofNat 32 (Instr.fxsave pre op).length)) ∨
    (∃ pre op, OperandAccessible s pre op false ∧
      t = fxrstorNext s (operandAddress s pre op false) (s.eip + BitVec.ofNat 32 (Instr.fxrstor pre op).length)) ∨
    (s.crPE = true ∧ t = sysenterNext s) ∨
    (s.crPE = true ∧ s.privilege = 0#2 ∧ t = sysexitNext s) := by
  obtain ⟨i, rest, -, he⟩ := step_next h
  cases i with
  | fxrstor pre op =>
    obtain ⟨ha, -, -, rfl⟩ := execFxrstor_next (show execFxrstor pre op s = .next t from he)
    exact .inr (.inl ⟨pre, op, ha, rfl⟩)
  | fxsave pre op =>
    obtain ⟨ha, -, rfl⟩ := execFxsave_next (show execFxsave pre op s = .next t from he)
    exact .inl ⟨pre, op, ha, rfl⟩
  | sysenter =>
    obtain ⟨-, hp, -, -, -, -, rfl⟩ := execSysenter_next_iff.mp he
    exact .inr (.inr (.inl ⟨hp, rfl⟩))
  | sysexit =>
    obtain ⟨-, -, hp, hc, -, rfl⟩ := execSysexit_next_iff.mp he
    exact .inr (.inr (.inr ⟨hp, hc, rfl⟩))

end Sys2Proof.Laws
end

