-- ==== Sys2Proof/Laws/Operations.lean ====
section
/-! SUPPORT. What each shared operation over registers, flags, selectors and operands can do, said once: the lemmas that
later proofs cite instead of unfolding the operations. -/

namespace Sys2Proof.Laws

open Sys2Proof.Machine

/-! ## Modes, EFLAGS and the model-specific registers -/

theorem mode_eq_realAddress {s : State} : s.mode = .realAddress ↔ s.crPE = false := by
  unfold State.mode
  cases s.crPE <;> cases s.flagVM <;> simp

theorem mode_eq_protectedMode {s : State} : s.mode = .protectedMode ↔ s.crPE = true ∧ s.flagVM = false := by
  unfold State.mode
  cases s.crPE <;> cases s.flagVM <;> simp

theorem mode_eq_virtual8086 {s : State} : s.mode = .virtual8086 ↔ s.crPE = true ∧ s.flagVM = true := by
  unfold State.mode
  cases s.crPE <;> cases s.flagVM <;> simp

/-- Clearing VM and IF clears bits 17 and 9 and keeps every other bit. -/
theorem getLsbD_clearVmIf (eflags : Word) (n : Nat) :
    (clearVmIf eflags).getLsbD n = if n = 9 ∨ n = 17 then false else eflags.getLsbD n := by
  have hmask : ∀ k < 32, (0xFFFDFDFF#32).getLsbD k = !(k == 9 || k == 17) := by decide
  unfold clearVmIf
  by_cases hn : n < 32
  · rw [BitVec.getLsbD_and, hmask n hn]
    by_cases h9 : n = 9 <;> by_cases h17 : n = 17 <;> simp_all
  · rw [BitVec.getLsbD_of_ge _ _ (by omega), BitVec.getLsbD_of_ge eflags _ (by omega)]
    simp

/-- A selector with a replaced RPL: the multiple of 4 below, plus the RPL. -/
theorem toNat_withRpl (sel : Half) (rpl : BitVec 2) : (withRpl sel rpl).toNat = sel.toNat / 4 * 4 + rpl.toNat := by
  have h₁ := sel.isLt
  have h₂ := rpl.isLt
  rw [withRpl, BitVec.toNat_append, BitVec.extractLsb'_toNat, ← Nat.shiftLeft_add_eq_or_of_lt h₂]
  simp only [Nat.shiftRight_eq_div_pow, Nat.shiftLeft_eq]
  omega

theorem selectorSettled_iff {msr : MsrWord} {sum : Nat} :
    selectorSettled msr sum = true ↔ 4 ≤ msr.toNat ∧ msr.toNat + sum ≤ 0xFFFF := by
  simp [selectorSettled]

theorem csMsrZero_iff {s : State} : csMsrZero s = true ↔ s.sysenterCs.setWidth 32 = 0#32 := by
  unfold csMsrZero Config.msrw
  exact beq_iff_eq

/-! ## The register stack -/

/-- A register file reads as the function it was made from. -/
theorem get_ofFn (f : BitVec 3 → Ext) (j : BitVec 3) : (FpRegs.ofFn f).get j = f j := by
  have h : ∀ j : BitVec 3, j = 0 ∨ j = 1 ∨ j = 2 ∨ j = 3 ∨ j = 4 ∨ j = 5 ∨ j = 6 ∨ j = 7 := by decide
  rcases h j with rfl | rfl | rfl | rfl | rfl | rfl | rfl | rfl <;> rfl

/-! ## Operands -/

theorem mem_overrides {pre : List Prefix} {x : SegName} : x ∈ overrides pre ↔ Prefix.segment x ∈ pre := by
  induction pre with
  | nil => simp [overrides]
  | cons p rest ih => cases p <;> simp [overrides, ih]

/-- Without paging a linear address is its own physical address. -/
theorem translateLinear_of_unpaged {s : State} (h : s.mode = .realAddress ∨ s.params.pageRules = []) (linear : Word)
    (write : Bool) : translateLinear s linear write = .to linear := by
  unfold translateLinear
  split
  · rfl
  · rcases h with h | h
    · contradiction
    · rw [h]
      rfl

/-- A translation fault comes from a row of the table that covers the access, outside real-address mode. -/
theorem translateLinear_eq_fault {s : State} {linear : Word} {write : Bool} {code : Nat}
    (h : translateLinear s linear write = .fault code) :
    s.mode ≠ .realAddress ∧ ∃ r ∈ s.params.pageRules,
      pageRuleCovers r linear write s.privilege = true ∧ r.result = .fault code := by
  unfold translateLinear at h
  split at h
  · cases h
  · next hm =>
    split at h
    · next r hr =>
      have hc := List.find?_some hr
      refine ⟨hm, r, List.mem_of_find?_eq_some hr, hc, ?_⟩
      unfold pageRuleAnswer at h
      split at h <;> simp_all
    · cases h

/-- A segment as SYSENTER and SYSEXIT load it passes every check. -/
theorem segCheck_of_flat {r : SegReg} (h : flatAsLoaded r = true) (p : Params) (seg : SegName) (off : Word)
    (write : Bool) : segCheck p seg r off write = true := if_pos h

/-! ## The image -/

/-- Only the DP field can be left unwritten, and it is after an FP instruction without memory operand. -/
theorem fxsaveByte_eq_kept {s : State} {addr : Nat → Nat} {b : Nat} :
    fxsaveByte s addr b = .kept ↔ s.fpPrevNoMem = true ∧ 16 ≤ b ∧ b < 20 := by
  unfold fxsaveByte registerRowByte offsetByte reservedByte
  rcases Nat.lt_or_ge b 16 with hlo | hlo
  · refine ⟨fun h => ?_, fun h => absurd h.2.1 (by omega)⟩
    simp only at h
    repeat' split at h
    all_goals cases h
  · have h₂ : ¬b < 2 := by omega
    have h₄ : ¬b < 4 := by omega
    have h₄' : ¬b = 4 := by omega
    have h₅ : ¬b = 5 := by omega
    have h₆ : ¬b = 6 := by omega
    have h₇ : ¬b = 7 := by omega
    have h₁₂ : ¬b < 12 := by omega
    have h₁₄ : ¬b < 14 := by omega
    have h₁₆ : ¬b < 16 := by omega
    simp only [h₂, h₄, h₄', h₅, h₆, h₇, h₁₂, h₁₄, h₁₆, if_false, hlo, true_and]
    rcases Nat.lt_or_ge b 20 with hb | hb
    · cases s.fpPrevNoMem
      · simp only [hb, Bool.false_eq_true, if_true, if_false, false_and, iff_false]
        intro h
        split at h <;> cases h
      · simp [hb]
    · have h₂₀ : ¬b < 20 := by omega
      simp only [h₂₀, if_false, and_false, iff_false]
      intro h
      repeat' split at h
      all_goals cases h

/-- The addresses that FXSAVE closes to fetch. -/
theorem mem_noteSaved {s : State} {addr : Nat → Nat} {n : Nat} {l : List Nat} {a : Nat} :
    a ∈ noteSaved s addr n l ↔ a ∈ l ∨ ∃ b < n, a = addr b ∧ fxsaveByte s addr b ≠ .kept := by
  induction n generalizing l with
  | zero => simp [noteSaved]
  | succ n ih =>
    rw [noteSaved, ih]
    constructor
    · rintro (h | ⟨b, hb, h⟩)
      · split at h
        · exact .inl h
        · rcases (mem_insertAddr _ _ _).mp h with h | h
          · exact .inr ⟨n, by omega, h, ‹_›⟩
          · exact .inl h
      · exact .inr ⟨b, by omega, h⟩
    · rintro (h | ⟨b, hb, h, hk⟩)
      · left
        split
        · exact h
        · exact (mem_insertAddr _ _ _).mpr (.inr h)
      · by_cases hbn : b = n
        · subst hbn
          left
          rw [if_neg hk]
          exact (mem_insertAddr _ _ _).mpr (.inl h)
        · exact .inr ⟨b, by omega, h, hk⟩

/-- The list of closed addresses stays strictly rising. -/
theorem rising_noteSaved (s : State) (addr : Nat → Nat) (n : Nat) (l : List Nat) (h : rising l = true) :
    rising (noteSaved s addr n l) = true := by
  induction n generalizing l with
  | zero => exact h
  | succ n ih =>
    rw [noteSaved]
    apply ih
    split
    · exact h
    · exact rising_insertAddr _ _ h

/-! ## Fetching -/

/-- Bytes that stand where the fetch reads them, within the room, are the first bytes fetched. -/
theorem fetchBytes_of_placed (s : State) (bytes : List Byte) (room off : Nat) (hroom : bytes.length ≤ room)
    (h : ∀ (k : Nat) (hk : k < bytes.length), fetchByte s (off + k) = .byte (bytes[k])) :
    ∃ rest, fetchBytes s room off = bytes ++ rest := by
  induction bytes generalizing room off with
  | nil => exact ⟨_, rfl⟩
  | cons b bs ih =>
    cases room with
    | zero => simp at hroom
    | succ room =>
      have h0 := h 0 (by simp)
      simp only [Nat.add_zero, List.getElem_cons_zero] at h0
      obtain ⟨rest, hrest⟩ := ih room (off + 1) (by simpa using hroom) fun k hk => by
        have := h (k + 1) (by simpa using hk)
        simpa [Nat.add_assoc, Nat.add_comm 1 k] using this
      exact ⟨rest, by simp [fetchBytes, h0, hrest]⟩

/-- All the fetch can do: it reads bytes until the room ends or one of them stops it, and `fetchStop` says which. -/
theorem fetch_cases (s : State) (room off : Nat) :
    (fetchBytes s room off).length ≤ room ∧
    (∀ (k : Nat) (h : k < (fetchBytes s room off).length),
      fetchByte s (off + k) = .byte ((fetchBytes s room off)[k])) ∧
    ((fetchBytes s room off).length = room ∧ fetchStop s room off = .refuse .codeOutsideLimit ∨
      (fetchBytes s room off).length < room ∧
        fetchByte s (off + (fetchBytes s room off).length) = .stop (fetchStop s room off)) := by
  induction room generalizing off with
  | zero => exact ⟨Nat.le_refl _, fun k h => absurd h (Nat.not_lt_zero k), .inl ⟨rfl, rfl⟩⟩
  | succ room ih =>
    obtain ⟨hlen, hbytes, hend⟩ := ih (off + 1)
    rw [fetchBytes, fetchStop]
    cases h0 : fetchByte s off with
    | stop why => exact ⟨Nat.zero_le _, fun k h => absurd h (Nat.not_lt_zero k), .inr ⟨Nat.succ_pos _, h0⟩⟩
    | byte b =>
      refine ⟨Nat.succ_le_succ hlen, fun k h => ?_, ?_⟩
      · cases k with
        | zero => exact h0
        | succ k =>
          rw [← Nat.add_assoc, Nat.add_right_comm]
          exact hbytes k (Nat.lt_of_succ_lt_succ h)
      · simp only [List.length_cons, Nat.add_right_cancel_iff, Nat.add_lt_add_iff_right]
        rwa [← Nat.add_assoc, Nat.add_right_comm off]

/-- Bytes that stand where the fetch reads them, up to the end of the room or to a byte that stops it, are the bytes fetched. -/
theorem fetchBytes_eq_of_stop (s : State) (bytes : List Byte) (room off : Nat) (hroom : bytes.length ≤ room)
    (h : ∀ (k : Nat) (hk : k < bytes.length), fetchByte s (off + k) = .byte (bytes[k]))
    (hstop : bytes.length < room → ∃ why, fetchByte s (off + bytes.length) = .stop why) :
    fetchBytes s room off = bytes := by
  obtain ⟨rest, hrest⟩ := fetchBytes_of_placed s bytes room off hroom h
  obtain ⟨hlen, hbytes, -⟩ := fetch_cases s room off
  cases rest with
  | nil => simpa using hrest
  | cons b rest =>
    have hlt : bytes.length < (fetchBytes s room off).length := by simp [hrest]
    obtain ⟨why, hwhy⟩ := hstop (by omega)
    rw [hbytes _ hlt] at hwhy
    cases hwhy

/-- A byte on which the translation faults, or that an FXSAVE of the run wrote, stops the fetch; no other does. -/
theorem fetchByte_cases (s : State) (off : Nat) :
    (∃ code, translateLinear s (linearAddress s.cs (BitVec.ofNat 32 off) 0) false = .fault code ∧
      fetchByte s off = .stop (.fault (.pageFault code s.eip))) ∨
    (∃ phys, translateLinear s (linearAddress s.cs (BitVec.ofNat 32 off) 0) false = .to phys ∧
      (phys.toNat ∈ s.savedBytes ∧ fetchByte s off = .stop (.refuse .fetchOfSavedByte) ∨
        phys.toNat ∉ s.savedBytes ∧ fetchByte s off = .byte (s.mem.byte phys.toNat))) := by
  unfold fetchByte
  split
  · exact .inl ⟨_, ‹_›, rfl⟩
  · rename_i phys h
    refine .inr ⟨phys, h, ?_⟩
    by_cases hm : phys.toNat ∈ s.savedBytes <;> simp [hm]

/-! ## Runs -/

/-- A property that every step keeps holds along every run. -/
theorem runsTo_induction {P : State → Prop} (hP : ∀ s t, step s = .next t → P s → P t) (n : Nat) (s t : State)
    (h : RunsTo n s t) (hs : P s) : P t := by
  induction n generalizing s with
  | zero =>
    cases Host.Outcome.next.inj (show Host.Outcome.next s = Host.Outcome.next t from h)
    exact hs
  | succ n ih =>
    have hc : core.step s = step s := rfl
    cases hst : step s with
    | next u =>
      rw [hst] at hc
      simp only [RunsTo, Host.Core.run, hc] at h
      exact ih u h (hP s u hst hs)
    | fault r =>
      rw [hst] at hc
      simp only [RunsTo, Host.Core.run, hc] at h
      cases h
    | refused r =>
      rw [hst] at hc
      simp only [RunsTo, Host.Core.run, hc] at h
      cases h

end Sys2Proof.Laws
end

