-- ==== Sys2Proof/Laws/PerInstr.lean ====
section
/-! SUPPORT. The encoding of each instruction: its prefix bytes, then 0Fh, then its second opcode byte, then at most six bytes
of ModR/M, SIB and displacement (rules R80, R81). -/

namespace Sys2Proof.Laws

/-- The prefixes an instruction carries; SYSENTER and SYSEXIT carry none (rule R94). -/
def prefixesOf : Instr → List Prefix
  | .fxrstor pre _ => pre
  | .fxsave pre _ => pre
  | .sysenter => []
  | .sysexit => []

/-- The byte after 0Fh (rule R81). -/
def secondOpcodeByte : Instr → Byte
  | .fxrstor _ _ => 0xAE#8
  | .fxsave _ _ => 0xAE#8
  | .sysenter => 0x34#8
  | .sysexit => 0x35#8

theorem length_encodeOperand (reg : BitVec 3) (op : MemOp) : (encodeOperand reg op).length ≤ 6 := by
  cases op with
  | based32 _ d => cases d <;> simp [encodeOperand, Disp32.bytes, bytes32]
  | absolute32 => simp [encodeOperand, bytes32]
  | sib _ _ _ d => cases d <;> simp [encodeOperand, Disp32.bytes, bytes32]
  | sibAbsolute => simp [encodeOperand, bytes32]
  | based16 _ d => cases d <;> simp [encodeOperand, Disp16.bytes, bytes16]
  | absolute16 => simp [encodeOperand, bytes16]

/-- The layout of an instruction's bytes. -/
def OpcodeBytes.Statement (i : Instr) : Prop :=
  ∃ tail : List Byte, encode i = (prefixesOf i).map Prefix.byte ++ 0x0F#8 :: secondOpcodeByte i :: tail ∧
    tail.length ≤ 6

theorem OpcodeBytes.fxrstor (pre : List Prefix) (op : MemOp) : OpcodeBytes.Statement (.fxrstor pre op) :=
  ⟨_, rfl, length_encodeOperand 1 op⟩

theorem OpcodeBytes.fxsave (pre : List Prefix) (op : MemOp) : OpcodeBytes.Statement (.fxsave pre op) :=
  ⟨_, rfl, length_encodeOperand 0 op⟩

theorem OpcodeBytes.sysenter : OpcodeBytes.Statement .sysenter := ⟨[], rfl, by simp⟩

theorem OpcodeBytes.sysexit : OpcodeBytes.Statement .sysexit := ⟨[], rfl, by simp⟩

end Sys2Proof.Laws
end

