-- ==== Sys2Proof/Tests/Slice0.lean ====
section
/-! SUPPORT. The model's own tests: one ill-formed term for each check of WellFormed, encodings written out from the tables of
`30_encoding.md`, one step of each instruction on the vectors of `95_test_vectors.md`, and for each statement with hypotheses a
concrete state and operands that meet them. Expected results are the vectors', not the model's. -/

namespace Sys2Proof.Tests

set_option Elab.async false

open Sys2Proof.Machine

/-! ## Helpers -/

/-- The outcome is a next state with a property. -/
def after (o : Host.Outcome State Fault Refusal) (p : State → Bool) : Bool :=
  match o with
  | .next t => p t
  | _ => false

/-- The outcome is this fault. -/
def faults (o : Host.Outcome State Fault Refusal) (f : Fault) : Bool :=
  match o with
  | .fault g => g == f
  | _ => false

/-- The outcome is this refusal. -/
def refuses (o : Host.Outcome State Fault Refusal) (r : Refusal) : Bool :=
  match o with
  | .refused q => q == r
  | _ => false

theorem exists_next {o : Host.Outcome State Fault Refusal} {p : State → Bool} (h : after o p = true) :
    ∃ t, o = .next t ∧ p t = true := by
  cases o with
  | next t => exact ⟨t, rfl, h⟩
  | fault f => cases h
  | refused r => cases h

theorem eq_fault {o : Host.Outcome State Fault Refusal} {f : Fault} (h : faults o f = true) : o = .fault f := by
  cases o with
  | next t => cases h
  | fault g => rw [eq_of_beq h]
  | refused r => cases h

/-- The bytes at an address and after it. -/
def bytesAt (m : Memory) (a n : Nat) : List Byte := (List.range n).map fun k => m.byte (a + k)

/-- The start state of `95_test_vectors.md`: protected mode, flat 32-bit segments, CPL 0. -/
def flat : State :=
  { State.reset with
    cr0 := 0x60000011, cs := flatCode 0x08 0, ss := flatStack 0x10 0, ds := flatStack 0x23 3, es := flatStack 0x23 3
    eip := 0x1000 }

/-- The same in real-address mode with segments of base 0, as V14 asks. -/
def real : State := { flat with cr0 := 0x60000010, cs := segAtReset 0 0, ds := segAtReset 0 0, eip := 0x100 }

/-- The same in virtual-8086 mode. -/
def vm86 : State := { flat with eflags := 0x20202, cpl := 3 }

/-- The FP state of V10. -/
def v10 : State :=
  { flat with
    fcw := 0x037F, fsw := 0x2000, ftw := 0xC0FF, fop := 0x1E8
    fipOff := 0x00401000, fipSel := 0x001B, fdpOff := 0x00500010, fdpSel := 0x0023
    fr := {
      fr0 := 0xFFFFC000000000000000, fr1 := 0, fr2 := 0, fr3 := 0
      fr4 := 0x3FFF8000000000000000, fr5 := 0x40008000000000000000, fr6 := 0xBFFFC000000000000000, fr7 := 0 } }

/-- `FXSAVE [00002000h]` and `FXRSTOR [00003000h]`, as the vectors have them. -/
def save : Instr := .fxsave [] (.absolute32 0x2000)
def restore : Instr := .fxrstor [] (.absolute32 0x3000)

/-- The defined bytes of V20's image. -/
def v20 : State :=
  { flat with
    mem := {
      cells := [(0x3000, 0x7F), (0x3001, 0x02), (0x3003, 0x38), (0x3004, 0x80), (0x3006, 0xE8), (0x3007, 0xF9),
        (0x3009, 0x10), (0x300A, 0x40), (0x300C, 0x1B), (0x300E, 0xAA), (0x3010, 0x10), (0x3012, 0x50),
        (0x3014, 0x23), (0x3016, 0xAA), (0x3027, 0xC0), (0x3029, 0x40), (0x302A, 0xAA), (0x30A0, 0xAA)]
      opens := [] } }

/-- V40: at CPL 3 with IF set and the MSRs loaded, SYSENTER at `pc`. -/
def v40 : State :=
  { flat with
    cpl := 3, eflags := 0x202, cs := flatCode 0x1B 3, ss := flatStack 0x23 3
    regs := { flat.regs with esp := 0x7FFF0000, ecx := 0x7FFF0000, edx := 0x1002 }
    sysenterCs := 0x8, sysenterEsp := 0x9F000, sysenterEip := 0x100000
    mem := { cells := [(0x1000, 0x0F), (0x1001, 0x34), (0x100000, 0x0F), (0x100001, 0x35)], opens := [] } }

/-- V50: at CPL 0 with the MSRs, ECX and EDX loaded, SYSEXIT at `pc`. -/
def v50 : State := { v40 with cpl := 0, eflags := 0x2, cs := flatCode 0x08 0, ss := flatStack 0x10 0, eip := 0x100000 }

/-- A state with the bytes of an instruction where the next step fetches. -/
def withCode (s : State) (bytes : List Byte) : State := placeBytes s s.eip.toNat bytes

/-! ## WellFormed refuses each ill-formed term -/

/-- ESP is no plain base: `rm` 100 announces a SIB byte. -/
theorem test_illformed_esp_base : MemOp.wellFormed (.based32 .esp (.d8 0)) = false := by decide

/-- EBP with `mod` 00 is `disp32` alone. -/
theorem test_illformed_ebp_without_displacement : MemOp.wellFormed (.based32 .ebp .absent) = false := by decide

/-- SIB base EBP with `mod` 00 is `disp32` in place of a base. -/
theorem test_illformed_sib_ebp_without_displacement :
    MemOp.wellFormed (.sib .x1 (some .eax) .ebp .absent) = false := by decide

/-- Index field 100 means no index, with a base and without. -/
theorem test_illformed_esp_index : MemOp.wellFormed (.sib .x2 (some .esp) .eax .absent) = false ∧
    MemOp.wellFormed (.sibAbsolute .x2 (some .esp) 0) = false := by decide

/-- BP with `mod` 00 is `disp16` alone. -/
theorem test_illformed_bp_without_displacement : MemOp.wellFormed (.based16 .bp .absent) = false := by decide

/-- A 16-bit operand in a 32-bit code segment needs the address-size prefix, for both instructions. -/
theorem test_illformed_address_size : (Instr.fxsave [] (.absolute16 0x2000)).wellFormed .a32 = false ∧
    (Instr.fxrstor [.addressSize] (.absolute32 0x2000)).wellFormed .a32 = false := by decide

/-! ## Encodings written out (rules R81 to R90, V15) -/

theorem test_decode_sysenter : decode .a16 [0b00001111, 0b00110100] = .ok .sysenter [] := by decide

theorem test_decode_sysexit : decode .a32 [0b00001111, 0b00110101] = .ok .sysexit [] := by decide

/-- mod 00, reg 000, rm 101, then a displacement of four bytes; and mod 01, reg 000, rm 101, then one byte. -/
theorem test_decode_fxsave :
    decode .a32 [0b00001111, 0b10101110, 0b00_000_101, 0x00, 0x20, 0x00, 0x00] = .ok save [] ∧
    decode .a32 [0b00001111, 0b10101110, 0b01_000_101, 0x08] = .ok (.fxsave [] (.based32 .ebp (.d8 8))) [] := by decide

/-- mod 00, reg 001, rm 101; and mod 01, reg 001, rm 011 with displacement -16. -/
theorem test_decode_fxrstor :
    decode .a32 [0b00001111, 0b10101110, 0b00_001_101, 0x00, 0x30, 0x00, 0x00] = .ok restore [] ∧
    decode .a32 [0b00001111, 0b10101110, 0b01_001_011, 0xF0] = .ok (.fxrstor [] (.based32 .ebx (.d8 0xF0))) [] := by
  decide

/-- SIB bytes: scale 10, index 110, base 011; and no index, base 101 under mod 00. -/
theorem test_decode_sib :
    decode .a32 [0x0F, 0xAE, 0b10_000_100, 0b10_110_011, 0x00, 0x01, 0x00, 0x00] =
      .ok (.fxsave [] (.sib .x4 (some .esi) .ebx (.d32 0x100))) [] ∧
    decode .a32 [0x0F, 0xAE, 0b00_000_100, 0b00_100_101, 0x00, 0x20, 0x00, 0x00] =
      .ok (.fxsave [] (.sibAbsolute .x1 none 0x2000)) [] := by decide

/-- 16-bit addressing: rm 110 under mod 00; BX + SI under an address-size prefix. -/
theorem test_decode_16 :
    decode .a16 [0x0F, 0xAE, 0b00_000_110, 0x00, 0x20] = .ok (.fxsave [] (.absolute16 0x2000)) [] ∧
    decode .a32 [0x67, 0x0F, 0xAE, 0b00_000_000] = .ok (.fxsave [.addressSize] (.based16 .bxsi .absent)) [] := by decide

/-- The table's words, first byte most significant. -/
theorem test_table_words : decodeTableWord 16 0x0F34 = some .sysenter ∧ decodeTableWord 16 0x0F35 = some .sysexit ∧
    decodeTableWord 24 0x0FAE00 = some (.fxsave [] (.based16 .bxsi .absent)) ∧
    decodeTableWord 24 0x0FAE08 = some (.fxrstor [] (.based16 .bxsi .absent)) := by decide

/-! ## One step of each instruction -/

/-- V10. -/
theorem test_fxsave_v10 : after (exec save v10) (fun t =>
    bytesAt t.mem 0x2000 7 == [0x7F, 0x03, 0x00, 0x20, 0x70, 0x00, 0xE8] && t.mem.peek 0x2007 0x07 == 1 &&
    bytesAt t.mem 0x2008 6 == [0x00, 0x10, 0x40, 0x00, 0x1B, 0x00] &&
    bytesAt t.mem 0x2010 6 == [0x10, 0x00, 0x50, 0x00, 0x23, 0x00] &&
    bytesAt t.mem 0x2020 10 == [0, 0, 0, 0, 0, 0, 0, 0x80, 0xFF, 0x3F] &&
    bytesAt t.mem 0x2060 10 == [0, 0, 0, 0, 0, 0, 0, 0xC0, 0xFF, 0xFF] && t.eip == 0x1007) = true := by decide +kernel

/-- V13: the DP field keeps what the destination held. -/
theorem test_fxsave_v13 : after (exec save { v10 with
      fpPrevNoMem := true
      mem := { cells := [(0x2010, 0x11), (0x2011, 0x22), (0x2012, 0x33), (0x2013, 0x44)], opens := [] } }) (fun t =>
    bytesAt t.mem 0x2010 4 == [0x11, 0x22, 0x33, 0x44] && !t.fpPrevNoMem) = true := by decide +kernel

/-- V20. -/
theorem test_fxrstor_v20 : after (exec restore v20) (fun t =>
    t.fcw == 0x027F && t.fsw == 0x3800 && t.fop == 0x1E8 && t.fipSel == 0x1B && t.fipOff == 0x401000 &&
    t.fdpSel == 0x23 && t.fdpOff == 0x500010 && t.st 0 == 0x4000C000000000000000 && t.fr.fr7 == t.st 0 &&
    t.ftw == 0x3FFF && t.eip == 0x1007) = true := by decide +kernel

/-- V23: byte 4 = 81h tags FR0 Zero; V21: byte 5 = 01h is refused. -/
theorem test_fxrstor_v23_v21 :
    after (exec restore { v20 with mem := v20.mem.store 0x3004 (.byte 0x81) }) (fun t => t.ftw == 0x3FFD) = true ∧
    refuses (exec restore { v20 with mem := v20.mem.store 0x3005 (.byte 1) }) .tagWordUpperByteNonzero = true := by
  decide +kernel

/-- V40, from the fetch on. -/
theorem test_sysenter_v40 : after (step v40) (fun t =>
    t.cs == { sel := 0x8, base := 0, effLimit := 0xFFFFFFFF, g := true, s := true, typ := 0b1011, d := true, dpl := 0, p := true } &&
    t.ss == { sel := 0x10, base := 0, effLimit := 0xFFFFFFFF, g := true, s := true, typ := 0b0011, d := true, dpl := 0, p := true } &&
    t.cpl == 0 && t.regs.esp == 0x9F000 && t.eip == 0x100000 && t.eflags == 0x2 && t.regs.ecx == 0x7FFF0000) = true := by
  decide +kernel

/-- V42 and V41. -/
theorem test_sysenter_v42_v41 :
    after (exec .sysenter { v40 with sysenterCs := 0xB }) (fun t => t.cs.sel == 0x8 && t.ss.sel == 0x10) = true ∧
    after (exec .sysenter { v40 with sysenterCs := 0xFFF7 }) (fun t => t.cs.sel == 0xFFF4 && t.ss.sel == 0xFFFC) = true ∧
    faults (exec .sysenter { v40 with sysenterCs := 0 }) (.generalProtection 0x1000) = true := by decide +kernel

/-- V50, from the fetch on. -/
theorem test_sysexit_v50 : after (step v50) (fun t =>
    t.cs == { sel := 0x1B, base := 0, effLimit := 0xFFFFFFFF, g := true, s := true, typ := 0b1011, d := true, dpl := 3, p := true } &&
    t.ss == { sel := 0x23, base := 0, effLimit := 0xFFFFFFFF, g := true, s := true, typ := 0b0011, d := true, dpl := 3, p := true } &&
    t.cpl == 3 && t.regs.esp == 0x7FFF0000 && t.eip == 0x1002 && t.eflags == 0x2 && t.regs.edx == 0x1002) = true := by
  decide +kernel

/-- V52 and V51. -/
theorem test_sysexit_v52_v51 :
    after (exec .sysexit { v50 with sysenterCs := 0xC }) (fun t => t.cs.sel == 0x1F && t.ss.sel == 0x27) = true ∧
    after (exec .sysexit { v50 with sysenterCs := 0xFFE7 }) (fun t => t.cs.sel == 0xFFF7 && t.ss.sel == 0xFFFF) = true ∧
    faults (exec .sysexit { v50 with cpl := 1 }) (.generalProtection 0x100000) = true := by decide +kernel

/-! ## Other vectors of the shared operations -/

/-- V12: only FR4 is empty. -/
theorem test_abridged_tag_v12 : abridgedTag 0x1B24 = 0xEF := by decide

/-- V24, the rows of the tag table. -/
theorem test_tag_of_v24 : ([0x3FFF4000000000000000, 0x3FFFC000000000000000, 0x3FFF0000000000000000, 0x3FFF8000000000000000,
      0x00000000000000000001, 0x0000C000000000000000, 0, 0x80000000000000000000, 0x00008000000000000000,
      0x7FFF4000000000000000, 0xFFFFC000000000000000, 0x7FFF0000000000000000, 0x7FFF8000000000000000,
      0x00018000000000000000, 0x7FFE8000000000000000] : List Ext).map tagOf =
    [0b10, 0b00, 0b10, 0b00, 0b10, 0b10, 0b01, 0b01, 0b10, 0b10, 0b10, 0b10, 0b10, 0b00, 0b00] := by decide

/-- V60 to V66. -/
theorem test_presence_v60 : [(false, 6, 5, 0), (true, 6, 3, 3), (true, 6, 3, 2), (true, 6, 2, 2), (true, 6, 2, 3), (true, 6, 1, 9),
      (true, 5, 1, 1)].map (fun v : Bool × Nat × Nat × Nat =>
        hasFastSyscall { pentiumII with cpuidSep := v.1, family := v.2.1, model := v.2.2.1, stepping := v.2.2.2 }) =
    [false, true, true, false, true, false, true] := by decide

/-! ## Witnesses: the hypotheses of each statement, met together by a concrete state and operands

Decoding and the step. -/

theorem witness_DecodeOfEncode : (Instr.fxsave [.segment .es] (.based32 .edi .absent)).wellFormed .a32 = true ∧
    (Instr.fxsave [] (.sib .x8 none .esp (.d8 0x80))).wellFormed .a32 = true ∧
    (Instr.fxrstor [.addressSize] (.based16 .bp (.d16 0xFFFF))).wellFormed .a32 = true ∧
    (Instr.fxrstor [] (.absolute16 0)).wellFormed .a16 = true ∧ Instr.sysenter.wellFormed .a16 = true ∧
    Instr.sysexit.wellFormed .a32 = true := by decide +kernel

theorem witness_InstructionLengths : decode .a32 [0x0F, 0xAE, 0x84, 0xB3, 0x00, 0x01, 0x00, 0x00, 0x90] =
    .ok (.fxsave [] (.sib .x4 (some .esi) .ebx (.d32 0x100))) [0x90] := by decide

theorem witness_EncodeOfDecode : decode .a32 [0x26, 0x0F, 0xAE, 0x07, 0x90] =
    .ok (.fxsave [.segment .es] (.based32 .edi .absent)) [0x90] := by decide +kernel

theorem witness_NeighbouringEncodingsRefused : prefixOf 0x10 = none ∧ (0x10 : Byte) ≠ 0x0F#8 ∧
    ((0x33 : Byte) ≠ 0x34#8 ∧ (0x33 : Byte) ≠ 0x35#8 ∧ (0x33 : Byte) ≠ 0xAE#8) ∧ modOf 0xC0 = 3#2 ∧
    (modOf 0x10 ≠ 3#2 ∧ regOf 0x10 ≠ 0#3 ∧ regOf 0x10 ≠ 1#3) := by decide +kernel

theorem witness_StepRunsDecodedInstruction :
    decode (State.reset.withFetchWord 16 0x0F34).defaultAddrSize (State.reset.withFetchWord 16 0x0F34).codeBytes =
      .ok .sysenter (List.replicate 14 0) ∧
    decode (State.reset.withFetchWord 24 0x0FAE00).defaultAddrSize (State.reset.withFetchWord 24 0x0FAE00).codeBytes =
      .ok (.fxsave [] (.based16 .bxsi .absent)) (List.replicate 13 0) := by decide +kernel

/-- SYSEXIT in the last two bytes of the code segment. -/
theorem witness_StepRunsInstructionInMemory :
    Instr.sysexit.wellFormed (withCode { real with eip := 0xFFFE } [0x0F, 0x35]).defaultAddrSize = true ∧
    Instr.sysexit.length ≤ codeRoom (withCode { real with eip := 0xFFFE } [0x0F, 0x35]) ∧
    (∀ (k : Nat) (h : k < (encode .sysexit).length),
      fetchByte (withCode { real with eip := 0xFFFE } [0x0F, 0x35])
        ((withCode { real with eip := 0xFFFE } [0x0F, 0x35]).eip.toNat + k) = .byte ((encode .sysexit)[k])) := by
  decide +kernel

/-- V40 with the second byte of its SYSENTER on no page. -/
def secondByteUnmapped : State :=
  { v40 with params := { pentiumII with
    pageRules := [{ first := 0x1001, last := 0x1001, write := false, cpl := 3, result := .fault 4 }] } }

/-- The limit after one byte and before the first; a saved second byte at the last offset of the limit, and a saved first byte; a #PF
on the second byte; and one byte less than an encoding. -/
theorem witness_FetchStopsByName :
    ((withCode { real with eip := 0xFFFF } [0x0F]).Fetches [0x0F] ∧ decode .a16 [0x0F] = .truncated ∧
      (withCode { real with eip := 0xFFFF } [0x0F]).cs.effLimit.toNat < 0xFFFF + 1) ∧
    ({ real with eip := 0x10000 }.Fetches [] ∧ decode .a16 [] = .truncated ∧
      { real with eip := 0x10000 }.cs.effLimit.toNat < 0x10000 + 0) ∧
    ({ withCode { real with eip := 0xFFFE } [0x0F] with savedBytes := [0xFFFF] }.Fetches [0x0F] ∧
      translateLinear real (instructionAddress { real with eip := 0xFFFE } 1) false = .to 0xFFFF ∧
      0xFFFE + 1 ≤ real.cs.effLimit.toNat) ∧
    ({ real with savedBytes := [0x100] }.Fetches [] ∧ translateLinear real (instructionAddress real 0) false = .to 0x100) ∧
    (secondByteUnmapped.Fetches [0x0F] ∧ decode .a32 [0x0F] = .truncated ∧
      0x1000 + 1 ≤ secondByteUnmapped.cs.effLimit.toNat ∧
      translateLinear secondByteUnmapped (instructionAddress secondByteUnmapped 1) false = .fault 4) ∧
    (restore.wellFormed .a32 = true ∧ 6 < restore.length) := by
  unfold State.Fetches
  decide +kernel

/-! SYSENTER and SYSEXIT. -/

/-- What the completion statements of SYSENTER ask, at the smallest and at the largest settled SYSENTER_CS_MSR. -/
theorem witness_SysenterLoadsKernel : ∀ msr ∈ ([4, 8, 0xFFF7] : List MsrWord),
    hasFastSyscall { v40 with sysenterCs := msr }.params = true ∧ { v40 with sysenterCs := msr }.crPE = true ∧
    4 ≤ { v40 with sysenterCs := msr }.sysenterCs.toNat ∧ { v40 with sysenterCs := msr }.sysenterCs.toNat ≤ 0xFFF7 ∧
    { v40 with sysenterCs := msr, sysenterEsp := 0xFFFFFFFF }.sysenterEsp.toNat ≤ 0xFFFFFFFF ∧
    { v40 with sysenterCs := msr }.sysenterEip.toNat ≤ 0xFFFFFFFF :=
  List.forall_iff_forall_mem.mp (by decide +kernel)

theorem witness_SysenterFrame : ∃ t, exec .sysenter v40 = .next t :=
  (exists_next (p := fun _ => true) (by decide +kernel)).imp fun _ h => h.1

/-- After V40 the run goes on with V50's SYSEXIT. -/
theorem witness_SysenterMasksInterruptsForGood :
    exec .sysenter v40 = .next (sysenterNext v40) ∧ ∃ u, RunsTo 1 (sysenterNext v40) u := by
  refine ⟨Laws.execSysenter_next_iff.mpr (by decide +kernel), ?_⟩
  obtain ⟨u, hu, -⟩ := exists_next (o := step (sysenterNext v40)) (p := fun _ => true) (by decide +kernel)
  exact ⟨u, by simp only [RunsTo, Host.Core.run, show core.step (sysenterNext v40) = .next u from hu]⟩

theorem witness_SysenterModes : hasFastSyscall v40.params = true ∧ 4 ≤ v40.sysenterCs.toNat ∧
    v40.sysenterCs.toNat ≤ 0xFFF7 ∧ v40.sysenterEsp.toNat ≤ 0xFFFFFFFF ∧ v40.sysenterEip.toNat ≤ 0xFFFFFFFF ∧
    v40.mode = .protectedMode ∧ { v40 with eflags := 0x20202 }.mode = .virtual8086 ∧
    { v40 with cr0 := 0 }.mode = .realAddress := by decide +kernel

theorem witness_SysenterFaults : hasFastSyscall { v40 with sysenterCs := 0 }.params = true ∧
    exec .sysenter { v40 with sysenterCs := 0 } = .fault (.generalProtection 0x1000) :=
  ⟨by decide +kernel, eq_fault (by decide +kernel)⟩

theorem witness_SysexitLoadsUser : ∀ msr ∈ ([4, 8, 0xFFE7] : List MsrWord),
    hasFastSyscall { v50 with sysenterCs := msr }.params = true ∧ { v50 with sysenterCs := msr }.mode = .protectedMode ∧
    { v50 with sysenterCs := msr }.cpl = 0#2 ∧ 4 ≤ { v50 with sysenterCs := msr }.sysenterCs.toNat ∧
    { v50 with sysenterCs := msr }.sysenterCs.toNat ≤ 0xFFE7 :=
  List.forall_iff_forall_mem.mp (by decide +kernel)

theorem witness_SysexitFrame : ∃ t, exec .sysexit v50 = .next t :=
  (exists_next (p := fun _ => true) (by decide +kernel)).imp fun _ h => h.1

/-- One state for each cause, and the fault itself. -/
theorem witness_SysexitFaults : (hasFastSyscall v50.params = true ∧ { v50 with cpl := 1 }.sysenterCs.toNat ≤ 0xFFFFFFFF ∧
      { v50 with cpl := 1 }.privilege ≠ 0#2) ∧
    { v50 with sysenterCs := 0 }.sysenterCs = 0#64 ∧ { v50 with cr0 := 0 }.crPE = false ∧
    exec .sysexit { v50 with cpl := 1 } = .fault (.generalProtection 0x100000) :=
  ⟨by decide +kernel, by decide +kernel, by decide +kernel, eq_fault (by decide +kernel)⟩

theorem witness_SysexitFaultsInVirtual8086 : hasFastSyscall vm86.params = true ∧ vm86.mode = .virtual8086 := by decide +kernel

/-- At the largest SYSENTER_CS_MSR that both instructions settle. -/
theorem witness_SelectorBlock : (∃ t, exec .sysenter { v40 with sysenterCs := 0xFFE7 } = .next t) ∧
    (∃ v, exec .sysexit { v50 with sysenterCs := 0xFFE7 } = .next v) ∧
    { v50 with sysenterCs := 0xFFE7 }.sysenterCs = { v40 with sysenterCs := 0xFFE7 }.sysenterCs :=
  ⟨(exists_next (p := fun _ => true) (by decide +kernel)).imp fun _ h => h.1,
    (exists_next (p := fun _ => true) (by decide +kernel)).imp fun _ h => h.1, rfl⟩

theorem witness_FastCallsAreNoCallReturnPair : hasFastSyscall v40.params = true ∧ v40.crPE = true ∧
    4 ≤ v40.sysenterCs.toNat ∧ { v40 with sysenterCs := 0xFFE7 }.sysenterCs.toNat ≤ 0xFFE7 ∧
    v40.sysenterEsp.toNat ≤ 0xFFFFFFFF ∧ v40.sysenterEip.toNat ≤ 0xFFFFFFFF := by decide +kernel

/-- Each clause at the values next to the settled range. -/
theorem witness_UnsettledMsrsRefused : hasFastSyscall v50.params = true ∧ v50.crPE = true ∧ v50.privilege = 0#2 ∧
    ([3, 0xFFF8, 0x10008] : List MsrWord).Forall (fun msr => msr.setWidth 32 ≠ 0#32 ∧ (msr.toNat < 4 ∨ 0xFFF7 < msr.toNat)) ∧
    (v50.sysenterCs.setWidth 32 ≠ 0#32 ∧ 4 ≤ v50.sysenterCs.toNat ∧ v50.sysenterCs.toNat ≤ 0xFFF7 ∧
      0xFFFFFFFF < { v50 with sysenterEsp := 0x100000000 }.sysenterEsp.toNat) ∧
    ((0xFFE8 : MsrWord).setWidth 32 ≠ 0#32 ∧ 0xFFE7 < (0xFFE8 : MsrWord).toNat) := by decide +kernel

theorem witness_AbsentInstructionsRefused : hasFastSyscall { pentiumII with cpuidSep := false } = false ∧
    { pentiumII with hasFxsr := false }.hasFxsr = false ∧ hasReservedPrefix [.segment .es, .addressSize] = false := by decide +kernel

/-- At the last offset from which 512 bytes do not wrap. -/
theorem witness_KernelSegmentsAreFlat : (∃ t, exec .sysenter v40 = .next t) ∧ (0xFFFFFE00 : Word).toNat ≤ 0xFFFFFE00 :=
  ⟨witness_SysenterFrame, by decide +kernel⟩

theorem witness_UserSegmentsAreFlat : (∃ t, exec .sysexit v50 = .next t) ∧ (0xFFFFFE00 : Word).toNat ≤ 0xFFFFFE00 :=
  ⟨witness_SysexitFrame, by decide +kernel⟩

/-- Both instructions, completing from V40 and V50. -/
theorem witness_FastCallsIgnoreMemoryAndFpState : (∃ t, exec .sysenter v40 = .next t) ∧ (∃ t, exec .sysexit v50 = .next t) :=
  ⟨witness_SysenterFrame, witness_SysexitFrame⟩

/-! FXSAVE and FXRSTOR. -/

theorem access_v10 : OperandAccessible v10 [] (.absolute32 0x2000) true := Laws.fxStop_eq_none_iff.mp (by decide +kernel)

/-- V14's operand in real-address mode, and the last one that fits below 0FFFFH (V18). -/
theorem access_real : OperandAccessible real [] (.absolute16 0x2000) true ∧
    OperandAccessible real [] (.absolute16 0xFE00) true :=
  ⟨Laws.fxStop_eq_none_iff.mp (by decide +kernel), Laws.fxStop_eq_none_iff.mp (by decide +kernel)⟩

/-- The last operand of a flat segment (V18), in protected mode. -/
theorem access_top : OperandAccessible v10 [] (.absolute32 0xFFFFFE00) true :=
  Laws.fxStop_eq_none_iff.mp (by decide +kernel)

theorem address_v10 (w : Bool) : ∀ i < 512, operandAddress v10 [] (.absolute32 0x2000) w i = 0x2000 + i := by
  cases w <;> decide +kernel

theorem unaliased_v10 : OperandUnaliased v10 [] (.absolute32 0x2000) true := by
  intro i hi j hj h
  rw [address_v10 true i hi, address_v10 true j hj] at h
  omega

theorem access_v10b : OperandAccessible { v10 with fpPrevNoMem := true } [] (.absolute32 0x2000) true :=
  Laws.fxStop_eq_none_iff.mp (by decide +kernel)

theorem unaliased_v10b : OperandUnaliased { v10 with fpPrevNoMem := true } [] (.absolute32 0x2000) true := by
  have key : ∀ i < 512, operandAddress { v10 with fpPrevNoMem := true } [] (.absolute32 0x2000) true i = 0x2000 + i := by
    decide +kernel
  intro i hi j hj h
  rw [key i hi, key j hj] at h
  omega

/-- All premises of the completion statement of FXSAVE, in 32-bit mode, with DP to be written and not; and 16-bit mode. -/
theorem witness_FxsaveWritesImage : OperandAccessible v10 [] (.absolute32 0x2000) true ∧
    v10.eip.toNat + save.length < 2 ^ 32 ∧ v10.mem.wf = true ∧ OperandUnaliased v10 [] (.absolute32 0x2000) true ∧
    v10.mode32 = true ∧ v10.fpPrevNoMem = false ∧
    (OperandAccessible { v10 with fpPrevNoMem := true } [] (.absolute32 0x2000) true ∧
      OperandUnaliased { v10 with fpPrevNoMem := true } [] (.absolute32 0x2000) true) ∧
    OperandAccessible real [] (.absolute16 0x2000) true ∧ real.mode32 = false :=
  ⟨access_v10, by decide +kernel, by decide +kernel, unaliased_v10, by decide +kernel, by decide +kernel, ⟨access_v10b, unaliased_v10b⟩, access_real.1,
    by decide +kernel⟩

/-- FXSAVE completes from V10's state, with `FpPrevNoMem` clear and set. -/
theorem witness_FxsaveFrame : (∃ t, exec save v10 = .next t) ∧
    (∃ t, exec save { v10 with fpPrevNoMem := true } = .next t) ∧ { v10 with fpPrevNoMem := true }.fpPrevNoMem = true :=
  ⟨⟨_, Laws.execFxsave_of_accessible access_v10 (by decide +kernel)⟩,
    ⟨_, Laws.execFxsave_of_accessible (s := { v10 with fpPrevNoMem := true }) access_v10b (by decide +kernel)⟩, rfl⟩

theorem witness_FxsaveClosesWrittenBytes : ∃ t, exec save v10 = .next t := witness_FxsaveFrame.1

theorem access_v20 : OperandAccessible v20 [] (.absolute32 0x3000) false := Laws.fxStop_eq_none_iff.mp (by decide +kernel)

theorem witness_FxrstorLoadsImage : OperandAccessible v20 [] (.absolute32 0x3000) false ∧
    v20.mem.byte (operandAddress v20 [] (.absolute32 0x3000) false 5) = 0#8 ∧
    v20.eip.toNat + restore.length < 2 ^ 32 ∧ v20.mode32 = true := ⟨access_v20, by decide +kernel⟩

theorem witness_FxrstorFrame : ∃ t, exec restore v20 = .next t :=
  ⟨_, Laws.execFxrstor_of_accessible access_v20 (by decide +kernel) (by decide +kernel)⟩

/-- V21. -/
theorem witness_FxrstorRefusesUpperTagByte :
    OperandAccessible { v20 with mem := v20.mem.store 0x3005 (.byte 1) } [] (.absolute32 0x3000) false ∧
    { v20 with mem := v20.mem.store 0x3005 (.byte 1) }.mem.byte
      (operandAddress { v20 with mem := v20.mem.store 0x3005 (.byte 1) } [] (.absolute32 0x3000) false 5) ≠ 0#8 :=
  ⟨Laws.fxStop_eq_none_iff.mp (by decide +kernel), by decide +kernel⟩

/-- Each instruction completes; V22's image (FCW 027Eh, FSW 3881h) makes bit 0 pending. -/
theorem witness_PendingExceptionPersists : (∃ t, exec save v10 = .next t) ∧ (∃ t, exec .sysenter v40 = .next t) ∧
    (∃ t, exec .sysexit v50 = .next t) ∧
    after (exec restore { v20 with mem := (v20.mem.store 0x3000 (.byte 0x7E)).store 0x3002 (.byte 0x81) })
      (fun t => t.fpExceptionPending && t.fcw == 0x027E && t.fsw == 0x3881) = true :=
  ⟨witness_FxsaveFrame.1, witness_SysenterFrame, witness_SysexitFrame, by decide +kernel⟩

/-- The premises of the round trip, met by two instructions that complete. -/
def RoundTrips (s : State) (op : MemOp) : Prop :=
  s.mem.wf = true ∧ OperandUnaliased s [] op true ∧
    ∃ t u, exec (.fxsave [] op) s = .next t ∧ exec (.fxrstor [] op) t = .next u ∧
      ∀ b < 512, operandAddress t [] op false b = operandAddress s [] op true b

theorem roundTrips {s : State} {op : MemOp} (hwf : s.mem.wf = true) (hsave : fxStop [] op true s = none)
    (haddr : ∀ i < 512, operandAddress s [] op true i = 0x2000 + i)
    (haddr' : ∀ i < 512, operandAddress s [] op false i = 0x2000 + i)
    (hpc : s.eip.toNat + (Instr.fxsave [] op).length < 2 ^ 32)
    (hload : fxStop [] op false (fxsaveNext s (operandAddress s [] op true)
      (s.eip + BitVec.ofNat 32 (Instr.fxsave [] op).length)) = none)
    (hbyte : (fxsaveNext s (operandAddress s [] op true) (s.eip + BitVec.ofNat 32 (Instr.fxsave [] op).length)).mem.byte
      (operandAddress s [] op false 5) = 0#8)
    (hpc' : (s.eip + BitVec.ofNat 32 (Instr.fxsave [] op).length).toNat + (Instr.fxrstor [] op).length < 2 ^ 32) :
    RoundTrips s op := by
  refine ⟨hwf, fun i hi j hj h => ?_, _, _, Laws.execFxsave_of_accessible (Laws.fxStop_eq_none_iff.mp hsave) hpc,
    Laws.execFxrstor_of_accessible (Laws.fxStop_eq_none_iff.mp hload) hbyte hpc',
    fun b hb => (haddr' b hb).trans (haddr b hb).symm⟩
  rw [haddr i hi, haddr j hj] at h
  omega

/-- P1: FXSAVE, then FXRSTOR of the same bytes; in 32-bit mode, after an FP instruction without memory operand, and in 16-bit mode. -/
theorem witness_SaveRestoreRoundTrip : RoundTrips v10 (.absolute32 0x2000) ∧
    (RoundTrips { v10 with fpPrevNoMem := true } (.absolute32 0x2000) ∧ { v10 with fpPrevNoMem := true }.fpPrevNoMem = true) ∧
    (RoundTrips real (.absolute16 0x2000) ∧ real.mode32 = false) := by
  refine ⟨?_, ⟨?_, rfl⟩, ?_, by decide +kernel⟩ <;> apply roundTrips <;> decide +kernel

theorem witness_SavedImageNeverRefused : v10.mem.wf = true ∧ OperandUnaliased v10 [] (.absolute32 0x2000) true ∧
    ∃ t, exec save v10 = .next t ∧ operandAddress t [] (.absolute32 0x2000) false 5 =
      operandAddress v10 [] (.absolute32 0x2000) true 5 :=
  ⟨by decide +kernel, unaliased_v10, _, Laws.execFxsave_of_accessible access_v10 (by decide +kernel),
    (address_v10 false 5 (by decide +kernel)).trans (address_v10 true 5 (by decide +kernel)).symm⟩

/-- 00002000h by `disp32`, and by `disp16` under an address-size prefix. -/
theorem witness_AddressSizeKeepsFormat :
    operandSegment v10 [] (.absolute32 0x2000) = operandSegment v10 [.addressSize] (.absolute16 0x2000) ∧
    operandOffset v10 (.absolute32 0x2000) = operandOffset v10 (.absolute16 0x2000) ∧
    (∃ t, exec save v10 = .next t) ∧ (∃ t, exec (.fxsave [.addressSize] (.absolute16 0x2000)) v10 = .next t) ∧
    (∃ t, exec (.fxrstor [] (.absolute32 0x2000)) v10 = .next t) ∧
    (∃ t, exec (.fxrstor [.addressSize] (.absolute16 0x2000)) v10 = .next t) :=
  ⟨by decide +kernel, by decide +kernel, witness_FxsaveFrame.1,
    ⟨_, Laws.execFxsave_of_accessible (Laws.fxStop_eq_none_iff.mp (by decide +kernel)) (by decide +kernel)⟩,
    ⟨_, Laws.execFxrstor_of_accessible (Laws.fxStop_eq_none_iff.mp (by decide +kernel)) (by decide +kernel) (by decide +kernel)⟩,
    ⟨_, Laws.execFxrstor_of_accessible (Laws.fxStop_eq_none_iff.mp (by decide +kernel)) (by decide +kernel) (by decide +kernel)⟩⟩

/-- A reserved prefix; a base of 8; and an FXSAVE and an FXRSTOR of 7 bytes that end with the address space. -/
theorem witness_UnsettledOperandFormsRefused : Prefix.rep ∈ [Prefix.rep] ∧
    ({ flat with ds := { flat.ds with base := 8 } }.params.hasFxsr = true ∧
      ({ flat with ds := { flat.ds with base := 8 } }.seg (operandSegment flat [] (.absolute32 0))).base.toNat % 16 ≠ 0) ∧
    (OperandAccessible { v10 with eip := 0xFFFFFFF9 } [] (.absolute32 0x2000) true ∧
      2 ^ 32 ≤ { v10 with eip := 0xFFFFFFF9 }.eip.toNat + save.length) ∧
    (OperandAccessible { v20 with eip := 0xFFFFFFF9 } [] (.absolute32 0x3000) false ∧
      { v20 with eip := 0xFFFFFFF9 }.mem.byte
        (operandAddress { v20 with eip := 0xFFFFFFF9 } [] (.absolute32 0x3000) false 5) = 0#8 ∧
      2 ^ 32 ≤ { v20 with eip := 0xFFFFFFF9 }.eip.toNat + restore.length) :=
  ⟨by decide +kernel, by decide +kernel, ⟨Laws.fxStop_eq_none_iff.mp (by decide +kernel), by decide +kernel⟩,
    Laws.fxStop_eq_none_iff.mp (by decide +kernel), by decide +kernel⟩

/-! Exceptions. -/

theorem witness_ExceptionMatrix : exec .sysenter real = .fault (.generalProtection 0x100) ∧
    exec .sysexit vm86 = .fault (.generalProtection 0x1000) :=
  ⟨eq_fault (by decide +kernel), eq_fault (by decide +kernel)⟩

/-- V16: the misaligned operand 00002008h, for FXSAVE and FXRSTOR. -/
theorem witness_ReportsOneApplicableException :
    exec (.fxsave [] (.absolute32 0x2008)) v10 = .fault (.generalProtection 0x1000) ∧
    exec (.fxrstor [] (.absolute32 0x2008)) v10 = .fault (.generalProtection 0x1000) ∧ v10.params.hasFxsr = true ∧
    (v10.seg (operandSegment v10 [] (.absolute32 0x2008))).base.toNat % 16 = 0 ∧
    applicableFaults v10 [] (operandSegment v10 [] (.absolute32 0x2008)) (operandOffset v10 (.absolute32 0x2008)) true ≠ [] ∧
    applicableFaults v10 [] (operandSegment v10 [] (.absolute32 0x2008)) (operandOffset v10 (.absolute32 0x2008)) false ≠ [] :=
  ⟨eq_fault (by decide +kernel), eq_fault (by decide +kernel), by decide +kernel, by decide +kernel, by decide +kernel, by decide +kernel⟩

/-- V17: LOCK alone. -/
theorem witness_LockRaisesInvalidOpcode : Prefix.lock ∈ [Prefix.lock] ∧ v10.params.hasFxsr = true ∧
    Prefix.rep ∉ [Prefix.lock] ∧ Prefix.repne ∉ [Prefix.lock] ∧ Prefix.operandSize ∉ [Prefix.lock] ∧
    (v10.seg (operandSegment v10 [.lock] (.absolute32 0x2000))).base.toNat % 16 = 0 ∧
    applicableFaults v10 [.lock] (operandSegment v10 [.lock] (.absolute32 0x2000)) (operandOffset v10 (.absolute32 0x2000))
      true = [.invalidOpcode v10.eip] ∧
    applicableFaults v10 [.lock] (operandSegment v10 [.lock] (.absolute32 0x2000)) (operandOffset v10 (.absolute32 0x2000))
      false = [.invalidOpcode v10.eip] := by decide +kernel

/-- V17: CR0.TS alone, and CR0.EM alone. -/
theorem witness_DeviceNotAvailable : ∀ cr0 ∈ ([0x60000019, 0x60000015] : List Word),
    ({ v10 with cr0 := cr0 }.crEM = true ∨ { v10 with cr0 := cr0 }.crTS = true) ∧
    { v10 with cr0 := cr0 }.params.hasFxsr = true ∧
    ({ v10 with cr0 := cr0 }.seg (operandSegment v10 [] (.absolute32 0x2000))).base.toNat % 16 = 0 ∧
    applicableFaults { v10 with cr0 := cr0 } [] (operandSegment { v10 with cr0 := cr0 } [] (.absolute32 0x2000))
      (operandOffset { v10 with cr0 := cr0 } (.absolute32 0x2000)) true = [.deviceNotAvailable v10.eip] ∧
    applicableFaults { v10 with cr0 := cr0 } [] (operandSegment { v10 with cr0 := cr0 } [] (.absolute32 0x2000))
      (operandOffset { v10 with cr0 := cr0 } (.absolute32 0x2000)) false = [.deviceNotAvailable v10.eip] :=
  List.forall_iff_forall_mem.mp (by decide +kernel)

/-- V16 with alignment checking on. -/
def v16 : State := { v10 with cr0 := 0x60040011, eflags := 0x40002, cpl := 3 }

theorem witness_AlignmentCheckBesideGeneralProtection : v16.params.hasFxsr = true ∧
    (v16.seg (operandSegment v16 [] (.absolute32 0x2008))).base.toNat % 16 = 0 ∧
    (operandOffset v16 (.absolute32 0x2008)).toNat % 16 ≠ 0 ∧ v16.alignmentCheckOn = true ∧
    (∀ write, applicableFaults v16 [] (operandSegment v16 [] (.absolute32 0x2008)) (operandOffset v16 (.absolute32 0x2008)) write =
      [.generalProtection v16.eip, .alignmentCheck v16.eip]) ∧ v10.alignmentCheckOn = false := by decide +kernel

/-- Steps that fault: #GP(0) of V51, #UD of V17, Interrupt 13 of V18, and #PF on a later byte of the fetch, on an operand to be written
and on one to be read. -/
theorem witness_FaultsCarryPcAndCode :
    step { v50 with cpl := 1 } = .fault (.generalProtection 0x100000) ∧
    step (withCode v10 [0xF0, 0x0F, 0xAE, 0x05, 0x00, 0x20, 0x00, 0x00]) = .fault (.invalidOpcode 0x1000) ∧
    step (withCode real [0x0F, 0xAE, 0x06, 0x10, 0xFE]) = .fault (.interrupt13 0x100) ∧
    step secondByteUnmapped = .fault (.pageFault 4 0x1000) ∧
    step { withCode v10 [0x0F, 0xAE, 0x05, 0x00, 0x20, 0x00, 0x00] with params := { pentiumII with
      pageRules := [{ first := 0x21FF, last := 0x21FF, write := true, cpl := 0, result := .fault 2 }] } } =
        .fault (.pageFault 2 0x1000) ∧
    step { withCode v20 [0x0F, 0xAE, 0x0D, 0x00, 0x30, 0x00, 0x00] with params := { pentiumII with
      pageRules := [{ first := 0x3000, last := 0x3000, write := false, cpl := 0, result := .fault 0 }] } } =
        .fault (.pageFault 0 0x1000) := by
  refine ⟨?_, ?_, ?_, ?_, ?_, ?_⟩ <;> exact eq_fault (by decide +kernel)

/-! Operands, tags and the register stack. -/

/-- A base that is neither ESP nor EBP, and a row of the 16-bit table other than `rm` 110; both address sizes with the prefix and without. -/
theorem witness_AddressingForms : (GReg.edi ≠ .esp ∧ GReg.edi ≠ .ebp) ∧ (7#3 ≠ 6#3) ∧
    (AddrSize.a32 = if Prefix.addressSize ∈ [Prefix.addressSize] then AddrSize.a16.other else .a16) ∧
    (AddrSize.a16 = if Prefix.addressSize ∈ [Prefix.segment .es] then AddrSize.a16.other else .a16) := by decide

/-- Every mode, and protected mode with 16-bit and 32-bit code. -/
theorem witness_DefaultAddressSize : real.mode = .realAddress ∧ vm86.mode = .virtual8086 ∧
    (flat.mode = .protectedMode ∧ flat.cs.d = true) ∧
    ({ flat with cs := { flat.cs with d := false } }.mode = .protectedMode ∧ { flat.cs with d := false }.d = false) ∧
    (Prefix.addressSize ∈ [Prefix.addressSize] ∧ Prefix.addressSize ∉ [Prefix.lock]) := by decide +kernel

/-- No override; one; two different ones. -/
theorem witness_SegmentOverrides : (∀ x, Prefix.segment x ∉ [Prefix.addressSize]) ∧
    (Prefix.segment .es ∈ [Prefix.segment .es] ∧ ∀ y, Prefix.segment y ∈ [Prefix.segment .es] → y = .es) ∧
    (∃ x, Prefix.segment x ∈ [Prefix.segment .es, Prefix.segment .fs]) :=
  ⟨fun x => by cases x <;> decide, ⟨by decide +kernel, fun y => by cases y <;> decide⟩, ⟨.fs, by decide +kernel⟩⟩

theorem witness_UnpagedOperandIsContiguous : real.mode = .realAddress ∧ v10.params.pageRules = [] := by decide +kernel

theorem witness_TagClasses : exponentOf 0x7FFF8000000000000000 = BitVec.allOnes 15 ∧
    (exponentOf 0 = 0#15 ∧ jBit 0 = false ∧ fractionOf 0 = 0#63) ∧
    (exponentOf 1 = 0#15 ∧ fractionOf 1 ≠ 0#63) ∧
    (exponentOf 0x7FFE8000000000000000 ≠ 0#15 ∧ exponentOf 0x7FFE8000000000000000 ≠ BitVec.allOnes 15 ∧
      jBit 0x7FFE8000000000000000 = true) ∧
    (exponentOf 0x00010000000000000000 ≠ 0#15 ∧ exponentOf 0x00010000000000000000 ≠ BitVec.allOnes 15 ∧
      jBit 0x00010000000000000000 = false) := by decide +kernel

theorem witness_TagIgnoresSign : (0 : Ext).setWidth 79 = (0x80000000000000000000 : Ext).setWidth 79 ∧
    (0 : Ext) ≠ 0x80000000000000000000 := by decide +kernel

theorem witness_ValidBits : (0 < 8 ∧ 7 < 8) ∧ (0b00#2 ≠ 0b11#2 ∧ 0b01#2 ≠ 0b11#2 ∧ 0b10#2 ≠ 0b11#2) := by decide +kernel

theorem witness_StackOverRegisters : tosOf v10.fsw = 4#3 := by decide +kernel

/-! The whole machine. -/

/-- Each instruction as the next step of a state that meets the invariant. -/
theorem witness_StepKeepsInvariant :
    ((withCode v10 [0x0F, 0xAE, 0x05, 0x00, 0x20, 0x00, 0x00]).Inv ∧
      ∃ t, step (withCode v10 [0x0F, 0xAE, 0x05, 0x00, 0x20, 0x00, 0x00]) = .next t) ∧
    ((withCode v20 [0x0F, 0xAE, 0x0D, 0x00, 0x30, 0x00, 0x00]).Inv ∧
      ∃ t, step (withCode v20 [0x0F, 0xAE, 0x0D, 0x00, 0x30, 0x00, 0x00]) = .next t) ∧
    (v40.Inv ∧ ∃ t, step v40 = .next t) ∧ (v50.Inv ∧ ∃ t, step v50 = .next t) := by
  unfold State.Inv State.ModeLegal State.CsMatchesCpl
  refine ⟨⟨by decide +kernel, ?_⟩, ⟨by decide +kernel, ?_⟩, ⟨by decide +kernel, ?_⟩, ⟨by decide +kernel, ?_⟩⟩ <;>
    exact (exists_next (p := fun _ => true) (by decide +kernel)).imp fun _ h => h.1

/-- The premise of the statements about every step that answers a next state: `StepKeepsDataSegments`,
`StepKeepsControlRegisters`, `StepClearsFpPrevNoMem`, `ModeChanges`, `OnlyFxsaveWritesMemory`. -/
theorem witness_step_next : (∃ t, step v40 = .next t) ∧ (∃ t, step v50 = .next t) ∧
    (∃ t, step (withCode v10 [0x0F, 0xAE, 0x05, 0x00, 0x20, 0x00, 0x00]) = .next t) ∧
    (∃ t, step (withCode v20 [0x0F, 0xAE, 0x0D, 0x00, 0x30, 0x00, 0x00]) = .next t) :=
  ⟨witness_StepKeepsInvariant.2.2.1.2, witness_StepKeepsInvariant.2.2.2.2, witness_StepKeepsInvariant.1.2,
    witness_StepKeepsInvariant.2.1.2⟩

/-- One step of FXSAVE in real-address mode; and no step at all with SYSENTER_CS_MSR zero in protected mode. -/
theorem witness_FastCallsFaultUntilSetUp :
    ((∃ t, RunsTo 1 (withCode real [0x0F, 0xAE, 0x06, 0x00, 0x20]) t) ∧
      hasFastSyscall (withCode real [0x0F, 0xAE, 0x06, 0x00, 0x20]).params = true ∧
      (withCode real [0x0F, 0xAE, 0x06, 0x00, 0x20]).crPE = false) ∧
    (RunsTo 0 flat flat ∧ hasFastSyscall flat.params = true ∧ flat.sysenterCs.setWidth 32 = 0#32) := by
  refine ⟨⟨?_, by decide +kernel, by decide +kernel⟩, rfl, by decide +kernel, by decide +kernel⟩
  obtain ⟨u, hu, -⟩ := exists_next (o := step (withCode real [0x0F, 0xAE, 0x06, 0x00, 0x20])) (p := fun _ => true)
    (by decide +kernel)
  exact ⟨u, by
    simp only [RunsTo, Host.Core.run, show core.step (withCode real [0x0F, 0xAE, 0x06, 0x00, 0x20]) = .next u from hu]⟩

end Sys2Proof.Tests
end

/-! PROOFS. `10_state.md`: which segment registers a completed instruction writes. -/

namespace Sys2Proof.StateProofs

open Sys2Proof.Machine Sys2Proof.Laws

/-! ## The segment registers by name after each update -/

@[simp] theorem fxsaveNext_seg (s : State) (addr : Nat → Nat) (pc : Word) (x : SegName) :
    (fxsaveNext s addr pc).seg x = s.seg x := by
  cases x <;> rfl

@[simp] theorem fxrstorNext_seg (s : State) (addr : Nat → Nat) (pc : Word) (x : SegName) :
    (fxrstorNext s addr pc).seg x = s.seg x := by
  cases x <;> rfl

theorem sysenterNext_seg_of_data (s : State) {x : SegName} (hx : ¬(x = .cs ∨ x = .ss)) :
    (sysenterNext s).seg x = s.seg x := by
  cases x with
  | cs | ss => simp at hx
  | ds | es | fs | gs => rfl

theorem sysexitNext_seg_of_data (s : State) {x : SegName} (hx : ¬(x = .cs ∨ x = .ss)) :
    (sysexitNext s).seg x = s.seg x := by
  cases x with
  | cs | ss => simp at hx
  | ds | es | fs | gs => rfl

/-! ## Completed instructions and steps -/

/-- All that a completed instruction can write of the segment registers: CS and SS, by SYSENTER and SYSEXIT (rule R26). -/
theorem exec_next_seg {i : Instr} {s t : State} (h : exec i s = .next t) (x : SegName) :
    t.seg x = s.seg x ∨ (i = .sysenter ∨ i = .sysexit) ∧ (x = .cs ∨ x = .ss) := by
  cases i with
  | fxrstor pre op =>
    obtain ⟨-, -, -, rfl⟩ := execFxrstor_next (show execFxrstor pre op s = .next t from h)
    exact .inl (fxrstorNext_seg ..)
  | fxsave pre op =>
    obtain ⟨-, -, rfl⟩ := execFxsave_next (show execFxsave pre op s = .next t from h)
    exact .inl (fxsaveNext_seg ..)
  | sysenter =>
    obtain ⟨-, -, -, -, -, -, rfl⟩ := execSysenter_next_iff.mp h
    by_cases hx : x = .cs ∨ x = .ss
    · exact .inr ⟨.inl rfl, hx⟩
    · exact .inl (sysenterNext_seg_of_data s hx)
  | sysexit =>
    obtain ⟨-, -, -, -, -, rfl⟩ := execSysexit_next_iff.mp h
    by_cases hx : x = .cs ∨ x = .ss
    · exact .inr ⟨.inr rfl, hx⟩
    · exact .inl (sysexitNext_seg_of_data s hx)

/-- Settles O52: a step that answers a next state has run one instruction, and `exec_next_seg` says what that writes. -/
theorem stepKeepsDataSegments : Obligations.StepKeepsDataSegments := by
  unfold Obligations.StepKeepsDataSegments
  intro s t h
  obtain ⟨i, rest, hdecoded, hexec⟩ := step_next h
  have hdata (x : SegName) (hx : ¬(x = .cs ∨ x = .ss)) : t.seg x = s.seg x :=
    (exec_next_seg hexec x).resolve_right fun hw => hx hw.2
  refine ⟨hdata .ds (by decide), hdata .es (by decide), hdata .fs (by decide), hdata .gs (by decide), ?_⟩
  by_cases hi : i = .sysenter ∨ i = .sysexit
  · exact .inl ⟨i, rest, hdecoded, hi⟩
  · have hkept (x : SegName) : t.seg x = s.seg x :=
      (exec_next_seg hexec x).resolve_right fun hw => hi hw.1
    exact .inr ⟨hkept .cs, hkept .ss⟩

end Sys2Proof.StateProofs

/-! PROOFS. `30_encoding.md`: the LOCK prefix before FXSAVE and FXRSTOR. -/

namespace Sys2Proof.EncodingProofs

open Sys2Proof.Machine Sys2Proof.Laws

variable {s : State} {pre : List Prefix} {op : MemOp} {f g : Fault} {w : Bool}

/-! ## From the stop of FXSAVE and FXRSTOR to their outcome -/

theorem exec_fxsave_of_fxStop_fault (h : fxStop pre op true s = some (.fault f)) :
    exec (.fxsave pre op) s = .fault f := by
  change execFxsave pre op s = .fault f
  unfold execFxsave
  rw [h]
  rfl

theorem exec_fxrstor_of_fxStop_fault (h : fxStop pre op false s = some (.fault f)) :
    exec (.fxrstor pre op) s = .fault f := by
  change execFxrstor pre op s = .fault f
  unfold execFxrstor
  rw [h]
  rfl

/-- Where no situation without meaning holds and `g` applies, a fault stops the instruction, and `g` does when nothing
else applies (rule R175). -/
theorem exists_fxStop_fault_of_mem (hres : hasReservedPrefix pre = false) (hpart : s.params.hasFxsr = true)
    (hbase : (s.seg (operandSegment s pre op)).base.toNat % 16 = 0)
    (hg : g ∈ applicableFaults s pre (operandSegment s pre op) (operandOffset s op) w) :
    ∃ f, fxStop pre op w s = some (.fault f) ∧
      ((∀ f' ∈ applicableFaults s pre (operandSegment s pre op) (operandOffset s op) w, f' = g) → f = g) := by
  obtain ⟨f, hf, hstop⟩ := fxStop_of_applicable hres hpart hbase (List.ne_nil_of_mem hg)
  exact ⟨f, hstop, fun honly => honly f hf⟩

/-! ## LOCK -/

theorem invalidOpcode_mem_applicableFaults_of_lock (h : Prefix.lock ∈ pre) (seg : SegName) (off : Word) :
    .invalidOpcode s.eip ∈ applicableFaults s pre seg off w :=
  mem_applicableFaults.mpr (.inl ⟨h, rfl⟩)

/-- Settles O38: LOCK puts #UD among the applicable exceptions, one of which stops FXSAVE and FXRSTOR. -/
theorem lockRaisesInvalidOpcode : Obligations.LockRaisesInvalidOpcode := by
  unfold Obligations.LockRaisesInvalidOpcode
  intro s pre op hlock hpart hrep hrepne hsize hbase
  have hres : hasReservedPrefix pre = false := hasReservedPrefix_eq_false.mpr ⟨hrep, hrepne, hsize⟩
  have hud (w : Bool) :
      .invalidOpcode s.eip ∈ applicableFaults s pre (operandSegment s pre op) (operandOffset s op) w :=
    invalidOpcode_mem_applicableFaults_of_lock hlock _ _
  obtain ⟨f, hsave, hsaveOnly⟩ := exists_fxStop_fault_of_mem hres hpart hbase (hud true)
  obtain ⟨g, hrestore, hrestoreOnly⟩ := exists_fxStop_fault_of_mem hres hpart hbase (hud false)
  have hsaveFaults := exec_fxsave_of_fxStop_fault hsave
  have hrestoreFaults := exec_fxrstor_of_fxStop_fault hrestore
  exact ⟨hud, ⟨f, hsaveFaults⟩, ⟨g, hrestoreFaults⟩, fun honly => hsaveOnly honly ▸ hsaveFaults,
    fun honly => hrestoreOnly honly ▸ hrestoreFaults⟩

end Sys2Proof.EncodingProofs

/-! PROOFS. `40_fp_state_save_restore.md`: what FXSAVE leaves unchanged, and the classes of the tags. -/

namespace Sys2Proof.FpStateProofs

open Sys2Proof.Machine Sys2Proof.Laws Sys2Proof.StateProofs

/-! ## What FXSAVE leaves unchanged -/

section
variable (s : State) (addr : Nat → Nat) (pc : Word)

@[simp] theorem fxsaveNext_mm (j : BitVec 3) : (fxsaveNext s addr pc).mm j = s.mm j := rfl

@[simp] theorem fxsaveNext_msr (m : Msr) : (fxsaveNext s addr pc).msr m = s.msr m := by
  cases m <;> rfl

@[simp] theorem fxsaveNext_fpExceptionPending :
    (fxsaveNext s addr pc).fpExceptionPending = s.fpExceptionPending := rfl

/-- FXSAVE leaves a byte alone when it is none of the operand's, or one of its DP field alone and the last FP instruction had
no memory operand (rules R113, R117). -/
theorem fxsaveNext_byte_of_unwritten (a : Nat)
    (h : ∀ b < 512, a = addr b → s.fpPrevNoMem = true ∧ 16 ≤ b ∧ b < 20) :
    (fxsaveNext s addr pc).mem.byte a = s.mem.byte a := by
  rw [fxsaveNext_mem, operandSize_eq]
  exact byte_storeFirst_kept _ _ _ _ _ fun b hb ha => fxsaveByte_eq_kept.mpr (h b hb ha)

end

/-- Settles O27: `fxsaveNext` changes EIP, the hidden bits and memory, and memory only where it writes. -/
theorem fxsaveFrame : Obligations.FxsaveFrame := by
  unfold Obligations.FxsaveFrame
  intro s t pre op h
  obtain ⟨-, -, rfl⟩ := execFxsave_next (show execFxsave pre op s = .next t from h)
  have hbyte := fxsaveNext_byte_of_unwritten s (operandAddress s pre op true)
    (s.eip + BitVec.ofNat 32 (Instr.fxsave pre op).length)
  have houtside (a : Nat) (ha : ∀ b < 512, a ≠ operandAddress s pre op true b) :=
    hbyte a fun b hb he => absurd he (ha b hb)
  have hdp (hprev : s.fpPrevNoMem = true) (a : Nat)
      (ha : ∀ b < 512, a = operandAddress s pre op true b → 16 ≤ b ∧ b < 20) :=
    hbyte a fun b hb he => ⟨hprev, ha b hb he⟩
  simpa using ⟨houtside, hdp⟩

/-! ## The class of an 80-bit value -/

section
variable {v : Ext}

theorem tagOf_of_exponent_ones (he : exponentOf v = BitVec.allOnes 15) : tagOf v = tagSpecial := if_pos he

theorem tagOf_of_exponent_zero (he : exponentOf v = 0#15) :
    tagOf v = if jBit v = false ∧ fractionOf v = 0#63 then tagZero else tagSpecial := by
  unfold tagOf
  rw [if_neg (by rw [he]; decide), if_pos he]

theorem tagOf_of_exponent_between (hzero : exponentOf v ≠ 0#15) (hones : exponentOf v ≠ BitVec.allOnes 15) :
    tagOf v = if jBit v = true then tagValid else tagSpecial := by
  unfold tagOf
  exact (if_neg hones).trans (if_neg hzero)

/-- The M-bit is the top bit of the fraction (rule R39). -/
theorem getLsbD_fractionOf_top : (fractionOf v).getLsbD 62 = v.getLsbD 62 := by
  simp [fractionOf]

end

/-- Settles O46, by the three ranges of the exponent. -/
theorem tagClasses : Obligations.TagClasses := by
  unfold Obligations.TagClasses
  intro v
  refine ⟨rfl, rfl, tagOf_of_exponent_ones, ?zero, ?zeroSpecial, ?valid, ?unnormal, ?mBit⟩
  case zero =>
    intro he hj hf
    rw [tagOf_of_exponent_zero he, if_pos ⟨hj, hf⟩]
  case zeroSpecial =>
    rintro he (hj | hf)
    · simp [tagOf_of_exponent_zero he, hj]
    · simp [tagOf_of_exponent_zero he, hf]
  case valid =>
    intro hzero hones hj
    rw [tagOf_of_exponent_between hzero hones, if_pos hj]
  case unnormal =>
    intro hzero hones hj
    simp [tagOf_of_exponent_between hzero hones, hj]
  case mBit =>
    intro hf
    rw [← getLsbD_fractionOf_top, hf]
    rfl

end Sys2Proof.FpStateProofs

/-! PROOFS. `41_fast_system_call.md`: what SYSENTER and SYSEXIT load, keep and raise, and what no run after SYSENTER undoes. -/

namespace Sys2Proof.FastSystemCallProofs

open Sys2Proof.Machine Sys2Proof.Laws

variable {s t : State}

/-! ## Selectors -/

section
variable (sel : Half)

theorem extractLsb'_withRpl (rpl : BitVec 2) : (withRpl sel rpl).extractLsb' 0 2 = rpl :=
  BitVec.extractLsb'_append_eq_right

theorem getLsbD_withRpl (rpl : BitVec 2) {i : Nat} (h : i < 16) :
    (withRpl sel rpl).getLsbD i = if i < 2 then rpl.getLsbD i else sel.getLsbD i := by
  rw [withRpl, BitVec.getLsbD_append]
  split
  · rfl
  · rw [BitVec.getLsbD_extractLsb', Nat.add_sub_cancel' (by omega), decide_eq_true (by omega), Bool.true_and]

/-- RPL 0 is bits 1:0 masked off (rules R133, R134). -/
theorem withRpl_zero : withRpl sel 0#2 = sel &&& 0xFFFC#16 := by
  have hmask : ∀ i < 16, (0xFFFC#16).getLsbD i = !decide (i < 2) := by decide
  refine BitVec.eq_of_getLsbD_eq fun i h => ?_
  rw [getLsbD_withRpl _ _ h, BitVec.getLsbD_and, hmask i h]
  by_cases hi : i < 2 <;> simp [hi]

/-- RPL 3 is bits 1:0 set (rules R142, R143). -/
theorem withRpl_three : withRpl sel 3#2 = sel ||| 3#16 := by
  have hmask : ∀ i < 16, (3#16).getLsbD i = decide (i < 2) := by decide
  have hrpl : ∀ i < 2, (3#2).getLsbD i = true := by decide
  refine BitVec.eq_of_getLsbD_eq fun i h => ?_
  rw [getLsbD_withRpl _ _ h, BitVec.getLsbD_or, hmask i h]
  by_cases hi : i < 2
  · rw [if_pos hi, hrpl i hi, decide_eq_true hi, Bool.or_true]
  · simp [hi]

end

/-- Adding 8 to a selector with RPL 0 leaves RPL 0, so rule R134's second forcing of bits 1:0 changes nothing. -/
theorem kernelStackSelector_eq (s : State) : kernelStackSelector s = kernelCodeSelector s + 8#16 := by
  have hcode : (kernelCodeSelector s).toNat = (s.sysenterCs.setWidth 16).toNat / 4 * 4 := by
    simp [kernelCodeSelector, toNat_withRpl]
  have hstack : (kernelStackSelector s).toNat = (kernelCodeSelector s + 8#16).toNat / 4 * 4 := by
    simp [kernelStackSelector, toNat_withRpl]
  bv_omega

/-! ## The model-specific registers -/

theorem above32_eq_false {msr : MsrWord} : above32 msr = false ↔ msr.toNat ≤ 0xFFFFFFFF := by
  simp [above32]

/-- An MSR value of 32 bits is read whole. -/
theorem toNat_setWidth_of_le {msr : MsrWord} (h : msr.toNat ≤ 0xFFFFFFFF) : (msr.setWidth 32).toNat = msr.toNat := by
  rw [BitVec.toNat_setWidth]
  omega

/-- On values of 32 bits the zero test is a test of the whole register (decision D18). -/
theorem csMsrZero_iff_eq_zero (h : s.sysenterCs.toNat ≤ 0xFFFFFFFF) : csMsrZero s = true ↔ s.sysenterCs = 0#64 := by
  rw [csMsrZero_iff, ← BitVec.toNat_inj, toNat_setWidth_of_le h, ← BitVec.toNat_inj]
  rfl

theorem csMsrZero_eq_false_of_settled {sum : Nat} (h : selectorSettled s.sysenterCs sum = true) :
    csMsrZero s = false := by
  obtain ⟨hlow, hsum⟩ := selectorSettled_iff.mp h
  rw [← Bool.not_eq_true, csMsrZero_iff_eq_zero (by omega)]
  intro hzero
  rw [hzero] at hlow
  exact absurd hlow (by decide)

/-! ## When the two instructions complete -/

/-- SYSENTER completes with the facility present, CR0.PE set and settled MSRs, whatever the mode and CPL (rules R131, R138). -/
theorem exec_sysenter_of_settled (hpart : hasFastSyscall s.params = true) (hpe : s.crPE = true)
    (hlow : 4 ≤ s.sysenterCs.toNat) (hhigh : s.sysenterCs.toNat ≤ 0xFFF7)
    (hesp : s.sysenterEsp.toNat ≤ 0xFFFFFFFF) (heip : s.sysenterEip.toNat ≤ 0xFFFFFFFF) :
    exec .sysenter s = .next (sysenterNext s) := by
  have hsettled : selectorSettled s.sysenterCs 8 = true := selectorSettled_iff.mpr ⟨hlow, by omega⟩
  exact execSysenter_next_iff.mpr ⟨hpart, hpe, csMsrZero_eq_false_of_settled hsettled, hsettled,
    above32_eq_false.mpr hesp, above32_eq_false.mpr heip, rfl⟩

theorem privilege_of_protectedMode (h : s.mode = .protectedMode) : s.privilege = s.cpl :=
  if_neg (by simp [h])

/-- SYSEXIT completes with the facility present, in protected mode at CPL 0 with a settled SYSENTER_CS_MSR (rule R140). -/
theorem exec_sysexit_of_settled (hpart : hasFastSyscall s.params = true) (hmode : s.mode = .protectedMode)
    (hcpl : s.cpl = 0#2) (hlow : 4 ≤ s.sysenterCs.toNat) (hhigh : s.sysenterCs.toNat ≤ 0xFFE7) :
    exec .sysexit s = .next (sysexitNext s) := by
  have hsettled : selectorSettled s.sysenterCs 24 = true := selectorSettled_iff.mpr ⟨hlow, by omega⟩
  exact execSysexit_next_iff.mpr ⟨hpart, csMsrZero_eq_false_of_settled hsettled, (mode_eq_protectedMode.mp hmode).1,
    (privilege_of_protectedMode hmode).trans hcpl, hsettled, rfl⟩

/-! ## EFLAGS along runs -/

theorem sysenterNext_flagVM (s : State) : (sysenterNext s).flagVM = false :=
  getLsbD_clearVmIf s.eflags 17

theorem sysenterNext_flagIF (s : State) : (sysenterNext s).flagIF = false :=
  getLsbD_clearVmIf s.eflags 9

theorem sysenterNext_mode (h : s.crPE = true) : (sysenterNext s).mode = .protectedMode :=
  mode_eq_protectedMode.mpr ⟨h, sysenterNext_flagVM s⟩

/-- All that a step can do to EFLAGS: SYSENTER clears VM and IF, the other three instructions write no bit of it. -/
theorem step_next_eflags (h : step s = .next t) : t.eflags = s.eflags ∨ t.eflags = clearVmIf s.eflags := by
  obtain ⟨_, _, -, rfl⟩ | ⟨_, _, -, rfl⟩ | ⟨-, rfl⟩ | ⟨-, -, rfl⟩ := step_next_cases h
  · exact .inl (fxsaveNext_eflags ..)
  · exact .inl (fxrstorNext_eflags ..)
  · exact .inr (sysenterNext_eflags s)
  · exact .inl (sysexitNext_eflags s)

theorem step_keeps_clear_flag {bit : Nat} (h : step s = .next t) (hclear : s.eflags.getLsbD bit = false) :
    t.eflags.getLsbD bit = false := by
  rcases step_next_eflags h with he | he
  · rw [he, hclear]
  · rw [he, getLsbD_clearVmIf, hclear, ite_self]

/-- No run of the four instructions sets a flag that is clear. -/
theorem runsTo_keeps_clear_flag {bit n : Nat} (h : RunsTo n s t) (hclear : s.eflags.getLsbD bit = false) :
    t.eflags.getLsbD bit = false :=
  runsTo_induction (P := fun u => u.eflags.getLsbD bit = false) (fun _ _ => step_keeps_clear_flag) n s t h hclear

/-- Settles O12: SYSENTER leaves VM and IF clear, and no run sets a clear flag. -/
theorem sysenterMasksInterruptsForGood : Obligations.SysenterMasksInterruptsForGood := by
  unfold Obligations.SysenterMasksInterruptsForGood
  intro s t h
  obtain ⟨-, -, -, -, -, -, rfl⟩ := execSysenter_next_iff.mp h
  have hvm := sysenterNext_flagVM s
  have hif := sysenterNext_flagIF s
  refine ⟨hvm, hif, fun n h9 h17 => ?others, fun n u hrun => ⟨fun hmode => ?vm, runsTo_keeps_clear_flag hrun hif⟩⟩
  case others => rw [sysenterNext_eflags, getLsbD_clearVmIf, if_neg (by omega)]
  case vm =>
    have hset : u.flagVM = true := (mode_eq_virtual8086.mp hmode).2
    have hclear : u.flagVM = false := runsTo_keeps_clear_flag hrun hvm
    simp [hclear] at hset

/-! ## SYSENTER -/

/-- Settles O10: SYSENTER completes, and `sysenterNext` holds the values of rules R133 and R134. -/
theorem sysenterLoadsKernel : Obligations.SysenterLoadsKernel := by
  unfold Obligations.SysenterLoadsKernel
  intro s hpart hpe hlow hhigh hesp heip
  refine ⟨sysenterNext s, exec_sysenter_of_settled hpart hpe hlow hhigh hesp heip, ?_⟩
  have hcode : kernelCodeSelector s = s.sysenterCs.setWidth 16 &&& 0xFFFC#16 := withRpl_zero _
  have hcodeRpl : (kernelCodeSelector s).extractLsb' 0 2 = 0#2 := extractLsb'_withRpl _ _
  have hstackRpl : (kernelStackSelector s).extractLsb' 0 2 = 0#2 := extractLsb'_withRpl _ _
  have hstack := kernelStackSelector_eq s
  simp [flatCode, flatStack, ← hcode, ← hstack, hcodeRpl, hstackRpl, -BitVec.toNat_setWidth,
    toNat_setWidth_of_le hesp, toNat_setWidth_of_le heip]

/-- Settles O13: with settled MSRs SYSENTER asks of the mode only that CR0.PE is set. -/
theorem sysenterModes : Obligations.SysenterModes := by
  unfold Obligations.SysenterModes
  intro s hpart hlow hhigh hesp heip
  have hcompletes (hpe : s.crPE = true) : ∃ t, exec .sysenter s = .next t ∧ t.mode = .protectedMode :=
    ⟨_, exec_sysenter_of_settled hpart hpe hlow hhigh hesp heip, sysenterNext_mode hpe⟩
  refine ⟨fun hmode => ?protectedMode, fun hmode => ?virtual8086, fun hmode => ?realAddress⟩
  case protectedMode => exact hcompletes (mode_eq_protectedMode.mp hmode).1
  case virtual8086 => exact hcompletes (mode_eq_virtual8086.mp hmode).1
  case realAddress => exact execSysenter_fault_iff.mpr ⟨hpart, .inl (mode_eq_realAddress.mp hmode), rfl⟩

/-! ## SYSEXIT -/

/-- Settles O15: SYSEXIT completes, and `sysexitNext` holds the values of rules R142 and R143. -/
theorem sysexitLoadsUser : Obligations.SysexitLoadsUser := by
  unfold Obligations.SysexitLoadsUser
  intro s hpart hmode hcpl hlow hhigh
  refine ⟨sysexitNext s, exec_sysexit_of_settled hpart hmode hcpl hlow hhigh, ?_⟩
  have hcode : userCodeSelector s = (s.sysenterCs.setWidth 16 + 16#16) ||| 3#16 := withRpl_three _
  have hcodeRpl : (userCodeSelector s).extractLsb' 0 2 = 3#2 := extractLsb'_withRpl _ _
  have hstack : userStackSelector s = (s.sysenterCs.setWidth 16 + 24#16) ||| 3#16 := withRpl_three _
  have hstackRpl : (userStackSelector s).extractLsb' 0 2 = 3#2 := extractLsb'_withRpl _ _
  simp [flatCode, flatStack, ← hcode, ← hstack, hcodeRpl, hstackRpl]

/-- Writing ESP leaves the other general registers. -/
theorem get_setEsp (r : Regs) (v : Word) {g : GReg} (h : g ≠ .esp) : { r with esp := v }.get g = r.get g := by
  cases g with
  | esp => contradiction
  | eax | ecx | edx | ebx | ebp | esi | edi => rfl

@[simp] theorem sysexitNext_msr (s : State) (m : Msr) : (sysexitNext s).msr m = s.msr m := by
  cases m <;> rfl

/-- Settles O16: `sysexitNext` changes ESP, EIP, CPL, CS, SS and the hidden bit, and of the registers ESP alone. -/
theorem sysexitFrame : Obligations.SysexitFrame := by
  unfold Obligations.SysexitFrame
  intro s t h
  obtain ⟨-, -, -, -, -, rfl⟩ := execSysexit_next_iff.mp h
  have hregs (r : GReg) (hr : r ≠ .esp) : (sysexitNext s).regs.get r = s.regs.get r := get_setEsp _ _ hr
  simpa using hregs

/-- Settles O17: the model's three tests are the rule's three causes, each raising #GP(0). -/
theorem sysexitFaults : Obligations.SysexitFaults := by
  unfold Obligations.SysexitFaults
  intro s f hpart hwidth
  have hfault : exec .sysexit s = .fault f ↔
      (s.sysenterCs = 0#64 ∨ s.privilege ≠ 0#2 ∨ s.crPE = false) ∧ f = .generalProtection s.eip := by
    refine execSysexit_fault_iff.trans ?_
    rw [csMsrZero_iff_eq_zero hwidth, or_comm (a := s.crPE = false), and_iff_right hpart]
  refine ⟨hfault, fun h => ?_⟩
  obtain ⟨-, rfl⟩ := hfault.mp h
  exact ⟨rfl, rfl⟩

end Sys2Proof.FastSystemCallProofs

/-! PROOFS. `60_exceptions.md`: #NM and #AC of FXSAVE and FXRSTOR, and the mode changes of the four instructions. -/

namespace Sys2Proof.ExceptionProofs

open Sys2Proof.Machine Sys2Proof.Laws Sys2Proof.EncodingProofs

variable {s t : State} {i : Instr} {pre : List Prefix} {op : MemOp} {seg : SegName} {off pc : Word} {f g : Fault} {w : Bool}

/-! ## The faults of FXSAVE and FXRSTOR -/

/-- The instruction that writes (FXSAVE) or only reads (FXRSTOR) its 512-byte operand, the flag by which `fxStop` tells them
apart. -/
def fxInstr : Bool → List Prefix → MemOp → Instr
  | true => .fxsave
  | false => .fxrstor

theorem eq_fault_of_outcome_eq_fault {stop : Stop} (h : stop.outcome = .fault f) : stop = .fault f := by
  cases stop with
  | fault g => exact congrArg Stop.fault (Host.Outcome.fault.inj h)
  | refuse r => nomatch h

theorem fxStop_of_execFxsave_fault (h : execFxsave pre op s = .fault f) : fxStop pre op true s = some (.fault f) := by
  unfold execFxsave at h
  split at h
  · next hstop => rw [hstop, eq_fault_of_outcome_eq_fault h]
  · split at h <;> nomatch h

theorem fxStop_of_execFxrstor_fault (h : execFxrstor pre op s = .fault f) :
    fxStop pre op false s = some (.fault f) := by
  unfold execFxrstor at h
  split at h
  · next hstop => rw [hstop, eq_fault_of_outcome_eq_fault h]
  · split at h
    · split at h <;> nomatch h
    · nomatch h

/-- The faults of FXSAVE and FXRSTOR are those that stop them before their operation (rules R64, R104, R114). -/
theorem exec_fxInstr_fault_iff : exec (fxInstr w pre op) s = .fault f ↔ fxStop pre op w s = some (.fault f) := by
  cases w with
  | true => exact ⟨fxStop_of_execFxsave_fault, exec_fxsave_of_fxStop_fault⟩
  | false => exact ⟨fxStop_of_execFxrstor_fault, exec_fxrstor_of_fxStop_fault⟩

/-- Where no situation without meaning holds and `g` applies, the instruction raises one of the exceptions that apply (rule
R175). -/
theorem exists_exec_fxInstr_fault (hres : hasReservedPrefix pre = false) (hpart : s.params.hasFxsr = true)
    (hbase : (s.seg (operandSegment s pre op)).base.toNat % 16 = 0)
    (hg : g ∈ applicableFaults s pre (operandSegment s pre op) (operandOffset s op) w) :
    ∃ f ∈ applicableFaults s pre (operandSegment s pre op) (operandOffset s op) w,
      exec (fxInstr w pre op) s = .fault f := by
  obtain ⟨f, hf, hstop⟩ := fxStop_of_applicable hres hpart hbase (List.ne_nil_of_mem hg)
  exact ⟨f, hf, exec_fxInstr_fault_iff.mpr hstop⟩

/-! ## #NM -/

theorem deviceNotAvailable_mem_applicableFaults (h : s.crEM = true ∨ s.crTS = true) :
    .deviceNotAvailable s.eip ∈ applicableFaults s pre seg off w :=
  mem_applicableFaults.mpr (.inr (.inl ⟨h, rfl⟩))

/-- #GP(0) is the only exception of SYSENTER and SYSEXIT (rules R132, R141). -/
theorem exec_fastCall_fault (hi : i = .sysenter ∨ i = .sysexit) (h : exec i s = .fault f) :
    f = .generalProtection s.eip := by
  rcases hi with rfl | rfl
  · exact (execSysenter_fault_iff.mp h).2.2
  · exact (execSysexit_fault_iff.mp h).2.2

/-- Settles O39: CR0.EM or CR0.TS puts #NM among the applicable exceptions, one of which is raised; the only exception of
SYSENTER and SYSEXIT is #GP(0). -/
theorem deviceNotAvailable : Obligations.DeviceNotAvailable := by
  unfold Obligations.DeviceNotAvailable
  refine ⟨fun s pre op hcr hpart hrep hrepne hsize hbase => ?fx, fun s pc => ?fastCalls⟩
  case fx =>
    have hres : hasReservedPrefix pre = false := hasReservedPrefix_eq_false.mpr ⟨hrep, hrepne, hsize⟩
    have hraises (w : Bool) := exists_exec_fxInstr_fault (w := w) hres hpart hbase (deviceNotAvailable_mem_applicableFaults hcr)
    obtain ⟨f, hf, hsave⟩ := hraises true
    obtain ⟨g, hg, hrestore⟩ := hraises false
    exact ⟨fun _ => deviceNotAvailable_mem_applicableFaults hcr, ⟨f, hsave⟩, ⟨g, hrestore⟩,
      fun honly => honly f hf ▸ hsave, fun honly => honly g hg ▸ hrestore⟩
  case fastCalls =>
    exact ⟨fun h => (nomatch exec_fastCall_fault (.inl rfl) h), fun h => (nomatch exec_fastCall_fault (.inr rfl) h)⟩

/-! ## #AC -/

theorem alignmentCheckOn_iff : s.alignmentCheckOn = true ↔
    s.mode ≠ .realAddress ∧ s.crAM = true ∧ s.flagAC = true ∧ s.privilege = 3#2 := by
  simp [State.alignmentCheckOn, and_assoc]

theorem misaligned_iff {r : SegReg} : misaligned r off = true ↔ (r.base.toNat + off.toNat) % 16 ≠ 0 :=
  bne_iff_ne

theorem limitFault_ne_alignmentCheck (pc' : Word) : limitFault seg pc ≠ .alignmentCheck pc' := by
  cases seg <;> nofun

/-- #AC is the last of the exceptions that can apply: misalignment under alignment checking. -/
theorem alignmentCheck_mem_applicableFaults : .alignmentCheck pc ∈ applicableFaults s pre seg off w ↔
    (misaligned (s.seg seg) off = true ∧ s.alignmentCheckOn = true) ∧ pc = s.eip := by
  simp [mem_applicableFaults, (limitFault_ne_alignmentCheck _).symm]

theorem generalProtection_mem_applicableFaults (h : misaligned (s.seg seg) off = true) :
    .generalProtection s.eip ∈ applicableFaults s pre seg off w :=
  mem_applicableFaults.mpr (.inr (.inr (.inr (.inr (.inl ⟨h, rfl⟩)))))

/-- FXSAVE and FXRSTOR report #AC only under alignment checking (rule R165). -/
theorem alignmentCheckOn_of_exec_fault (h : exec (fxInstr w pre op) s = .fault (.alignmentCheck pc)) :
    s.alignmentCheckOn = true := by
  obtain ⟨⟨-, hon⟩, -⟩ := alignmentCheck_mem_applicableFaults.mp (fxStop_fault (exec_fxInstr_fault_iff.mp h))
  exact hon

/-- Where #GP(0) and #AC are all that applies to a misaligned operand, one of them is reported (rule R175). -/
theorem exec_fault_of_only_alignment (hres : hasReservedPrefix pre = false) (hpart : s.params.hasFxsr = true)
    (hbase : (s.seg (operandSegment s pre op)).base.toNat % 16 = 0) (hoff : (operandOffset s op).toNat % 16 ≠ 0)
    (honly : ∀ f ∈ applicableFaults s pre (operandSegment s pre op) (operandOffset s op) w,
      f = .generalProtection s.eip ∨ f = .alignmentCheck s.eip) :
    exec (fxInstr w pre op) s = .fault (.generalProtection s.eip) ∨
      exec (fxInstr w pre op) s = .fault (.alignmentCheck s.eip) := by
  have hmis : misaligned (s.seg (operandSegment s pre op)) (operandOffset s op) = true := misaligned_iff.mpr (by omega)
  obtain ⟨f, hf, hexec⟩ := exists_exec_fxInstr_fault (w := w) hres hpart hbase (generalProtection_mem_applicableFaults hmis)
  rcases honly f hf with rfl | rfl
  · exact .inl hexec
  · exact .inr hexec

/-- Settles O40: misalignment is a condition of #AC and the whole condition of the alignment #GP(0). -/
theorem alignmentCheckBesideGeneralProtection : Obligations.AlignmentCheckBesideGeneralProtection := by
  unfold Obligations.AlignmentCheckBesideGeneralProtection
  refine ⟨fun s pre seg off w => ⟨?exactly, fun hac => ?beside⟩, ?reported, fun s pre op pc hoff => ?without,
    fun _ => ⟨rfl, rfl⟩⟩
  case exactly =>
    rw [alignmentCheck_mem_applicableFaults, alignmentCheckOn_iff, misaligned_iff]
    tauto
  case beside =>
    obtain ⟨⟨hmis, -⟩, -⟩ := alignmentCheck_mem_applicableFaults.mp hac
    exact generalProtection_mem_applicableFaults hmis
  case reported =>
    intro s pre op hpart hrep hrepne hsize hbase hoff _
    have hres : hasReservedPrefix pre = false := hasReservedPrefix_eq_false.mpr ⟨hrep, hrepne, hsize⟩
    exact ⟨exec_fault_of_only_alignment (w := true) hres hpart hbase hoff,
      exec_fault_of_only_alignment (w := false) hres hpart hbase hoff⟩
  case without =>
    have hnever (w : Bool) : exec (fxInstr w pre op) s ≠ .fault (.alignmentCheck pc) := fun h =>
      Bool.false_ne_true (hoff.symm.trans (alignmentCheckOn_of_exec_fault h))
    exact ⟨hnever true, hnever false⟩

/-! ## Mode changes -/

theorem crPE_congr (h : t.cr0 = s.cr0) : t.crPE = s.crPE :=
  congrArg (·.getLsbD 0) h

theorem flagVM_congr (h : t.eflags = s.eflags) : t.flagVM = s.flagVM :=
  congrArg (·.getLsbD 17) h

/-- The mode is a function of CR0 and EFLAGS (rule R180). -/
theorem mode_congr (hcr0 : t.cr0 = s.cr0) (heflags : t.eflags = s.eflags) : t.mode = s.mode := by
  unfold State.mode
  rw [crPE_congr hcr0, flagVM_congr heflags]

/-- Privilege level 0 under CR0.PE excludes virtual-8086 mode, where the level is 3 (rule R25). -/
theorem flagVM_of_privilege_zero (hpe : s.crPE = true) (hpriv : s.privilege = 0#2) : s.flagVM = false := by
  by_contra hvm
  have hthree : s.privilege = 3#2 := if_pos (mode_eq_virtual8086.mpr ⟨hpe, eq_true_of_ne_false hvm⟩)
  exact absurd (hthree.symm.trans hpriv) (by decide)

/-- FXSAVE and FXRSTOR leave what the mode and the privilege level are made of. -/
theorem exec_fx_next_keeps (hi : i = .fxsave pre op ∨ i = .fxrstor pre op) (h : exec i s = .next t) :
    t.cr0 = s.cr0 ∧ t.eflags = s.eflags ∧ t.cpl = s.cpl := by
  rcases hi with rfl | rfl
  · obtain ⟨-, -, rfl⟩ := execFxsave_next h
    exact ⟨fxsaveNext_cr0 .., fxsaveNext_eflags .., fxsaveNext_cpl ..⟩
  · obtain ⟨-, -, -, rfl⟩ := execFxrstor_next h
    exact ⟨fxrstorNext_cr0 .., fxrstorNext_eflags .., fxrstorNext_cpl ..⟩

/-- Settles O55: the state after each of the four instructions, in the bits the mode and the level are read from. -/
theorem modeChanges : Obligations.ModeChanges := by
  unfold Obligations.ModeChanges
  intro s t h
  obtain ⟨i, rest, hdecoded, hexec⟩ := step_next h
  refine ⟨i, rest, hdecoded, ?sysenter, ?sysexit, ?fx⟩
  case sysenter =>
    rintro rfl
    obtain ⟨-, -, -, -, -, -, rfl⟩ := execSysenter_next_iff.mp hexec
    exact ⟨sysenterNext_cpl s, FastSystemCallProofs.sysenterNext_flagVM s, crPE_congr (sysenterNext_cr0 s)⟩
  case sysexit =>
    rintro rfl
    obtain ⟨-, -, hpe, hpriv, -, rfl⟩ := execSysexit_next_iff.mp hexec
    exact ⟨sysexitNext_cpl s, flagVM_congr (sysexitNext_eflags s), flagVM_of_privilege_zero hpe hpriv,
      crPE_congr (sysexitNext_cr0 s)⟩
  case fx =>
    rintro ⟨pre, op, hi⟩
    obtain ⟨hcr0, heflags, hcpl⟩ := exec_fx_next_keeps hi hexec
    exact ⟨mode_congr hcr0 heflags, hcpl, flagVM_congr heflags, crPE_congr hcr0⟩

end Sys2Proof.ExceptionProofs

/-! PROOFS. `30_encoding.md`: the decoder and the encoder undo each other, and what the decoder refuses. -/

namespace Sys2Proof.DecoderProofs

open Sys2Proof.Machine Sys2Proof.Laws Sys2Proof.ExceptionProofs

variable {dflt size : AddrSize} {pre : List Prefix} {i : Instr} {op : MemOp} {b : Byte} {bs rest : List Byte} {w : Bool}

/-! ## Prefixes -/

@[simp] theorem prefixOf_byte (p : Prefix) : prefixOf p.byte = some p := by
  cases p with
  | segment seg => cases seg <;> rfl
  | lock | rep | repne | operandSize | addressSize => rfl

theorem byte_of_prefixOf {p : Prefix} (h : prefixOf b = some p) : p.byte = b := by
  apply BitVec.eq_of_toNat_eq
  unfold prefixOf at h
  split at h
  case h_12 => nomatch h
  all_goals
    cases h
    rename_i hb
    exact hb.symm

theorem splitPrefixes_cons_of_not_prefix (h : prefixOf b = none) : splitPrefixes (b :: bs) = ([], b :: bs) := by
  rw [splitPrefixes, h]

/-- The bytes of prefixes are split off from bytes that begin with none. -/
theorem splitPrefixes_map_byte_append (pre : List Prefix) (h : splitPrefixes bs = ([], bs)) :
    splitPrefixes (pre.map Prefix.byte ++ bs) = (pre, bs) := by
  induction pre with
  | nil => exact h
  | cons p pre ih => simp [splitPrefixes, ih]

/-- What is split off, and what remains, are the bytes. -/
theorem map_byte_splitPrefixes (bs : List Byte) : (splitPrefixes bs).1.map Prefix.byte ++ (splitPrefixes bs).2 = bs := by
  induction bs with
  | nil => rfl
  | cons b bs ih =>
    rw [splitPrefixes]
    cases hb : prefixOf b with
    | none => rfl
    | some p => simp [ih, byte_of_prefixOf hb]

/-! ## The opcode bytes -/

theorem decode_of_not_prefix (h : prefixOf b = none) :
    decode dflt (pre.map Prefix.byte ++ b :: bs) = decodeFirst dflt pre (b :: bs) := by
  rw [decode, splitPrefixes_map_byte_append pre (splitPrefixes_cons_of_not_prefix h)]

theorem decode_escape : decode dflt (pre.map Prefix.byte ++ 0x0F#8 :: bs) = decodeSecond dflt pre bs :=
  decode_of_not_prefix rfl

theorem decode_sysenter : decode dflt (pre.map Prefix.byte ++ 0x0F#8 :: 0x34#8 :: rest) = decodePlain pre .sysenter rest :=
  decode_escape

theorem decode_sysexit : decode dflt (pre.map Prefix.byte ++ 0x0F#8 :: 0x35#8 :: rest) = decodePlain pre .sysexit rest :=
  decode_escape

theorem decode_modRM : decode dflt (pre.map Prefix.byte ++ 0x0F#8 :: 0xAE#8 :: bs) = decodeModRM dflt pre bs :=
  decode_escape

/-! ## Fields and register numbers -/

section
variable (hi : BitVec 2) (mid low : BitVec 3)

@[simp] theorem rmOf_fieldsByte : rmOf (fieldsByte hi mid low) = low :=
  BitVec.extractLsb'_append_eq_right

@[simp] theorem regOf_fieldsByte : regOf (fieldsByte hi mid low) = mid :=
  (BitVec.extractLsb'_append_eq_of_le (w := 3) (by decide)).trans BitVec.extractLsb'_append_eq_right

@[simp] theorem modOf_fieldsByte : modOf (fieldsByte hi mid low) = hi :=
  (BitVec.extractLsb'_append_eq_of_le (w := 3) (by decide)).trans BitVec.extractLsb'_append_eq_left

end

theorem fieldsByte_fields (m : Byte) : fieldsByte (modOf m) (regOf m) (rmOf m) = m := by
  unfold fieldsByte modOf regOf rmOf
  rw [BitVec.extractLsb'_append_extractLsb'_eq_extractLsb' (by rfl),
    BitVec.extractLsb'_append_extractLsb'_eq_extractLsb' (by rfl)]
  exact BitVec.extractLsb'_eq_self

@[simp] theorem greg_ofNum_num (g : GReg) : GReg.ofNum g.num = g := by
  cases g <;> rfl

@[simp] theorem greg_num_ofNum : ∀ n : BitVec 3, (GReg.ofNum n).num = n := by
  decide

@[simp] theorem base16_ofNum_num (g : Base16) : Base16.ofNum g.num = g := by
  cases g <;> rfl

@[simp] theorem base16_num_ofNum : ∀ n : BitVec 3, (Base16.ofNum n).num = n := by
  decide

@[simp] theorem scale_ofNum_num (x : Scale) : Scale.ofNum x.num = x := by
  cases x <;> rfl

@[simp] theorem scale_num_ofNum : ∀ n : BitVec 2, (Scale.ofNum n).num = n := by
  decide

theorem indexOf_indexNum {index : Option GReg} (h : index ≠ some .esp) : indexOf (indexNum index) = index := by
  rcases index with - | g
  · rfl
  · cases g with
    | esp => exact absurd rfl h
    | eax | ecx | edx | ebx | ebp | esi | edi => rfl

@[simp] theorem indexNum_indexOf : ∀ n : BitVec 3, indexNum (indexOf n) = n := by
  decide

theorem indexOf_ne_esp : ∀ n : BitVec 3, indexOf n ≠ some .esp := by
  decide

/-! ## Little-endian values -/

section
variable (b0 b1 b2 b3 : Byte)

theorem bytes16_append : bytes16 (b1 ++ b0) = [b0, b1] := by
  have h0 : (b1 ++ b0).extractLsb' 0 8 = b0 := BitVec.extractLsb'_append_eq_right
  have h1 : (b1 ++ b0).extractLsb' 8 8 = b1 := BitVec.extractLsb'_append_eq_left
  rw [bytes16, h0, h1]

theorem bytes32_append : bytes32 (b3 ++ b2 ++ b1 ++ b0) = [b0, b1, b2, b3] := by
  have h0 : (b3 ++ b2 ++ b1 ++ b0).extractLsb' 0 8 = b0 := BitVec.extractLsb'_append_eq_right
  have h1 : (b3 ++ b2 ++ b1 ++ b0).extractLsb' 8 8 = b1 :=
    (BitVec.extractLsb'_append_eq_of_le (by decide)).trans BitVec.extractLsb'_append_eq_right
  have h2 : (b3 ++ b2 ++ b1 ++ b0).extractLsb' 16 8 = b2 :=
    (BitVec.extractLsb'_append_eq_of_le (by decide)).trans
      ((BitVec.extractLsb'_append_eq_of_le (by decide)).trans BitVec.extractLsb'_append_eq_right)
  have h3 : (b3 ++ b2 ++ b1 ++ b0).extractLsb' 24 8 = b3 :=
    (BitVec.extractLsb'_append_eq_of_le (by decide)).trans
      ((BitVec.extractLsb'_append_eq_of_le (by decide)).trans BitVec.extractLsb'_append_eq_left)
  rw [bytes32, h0, h1, h2, h3]

end

theorem take16_bytes16 (h : Half) : take16 (bytes16 h ++ rest) = some (h, rest) := by
  have heq : h.extractLsb' 8 8 ++ h.extractLsb' 0 8 = h :=
    (BitVec.extractLsb'_append_extractLsb'_eq_extractLsb' (by rfl)).trans BitVec.extractLsb'_eq_self
  exact congrArg (fun v => some (v, rest)) heq

theorem take32_bytes32 (v : Word) : take32 (bytes32 v ++ rest) = some (v, rest) := by
  have heq : v.extractLsb' 24 8 ++ v.extractLsb' 16 8 ++ v.extractLsb' 8 8 ++ v.extractLsb' 0 8 = v := by
    rw [BitVec.extractLsb'_append_extractLsb'_eq_extractLsb' (by rfl),
      BitVec.extractLsb'_append_extractLsb'_eq_extractLsb' (by rfl),
      BitVec.extractLsb'_append_extractLsb'_eq_extractLsb' (by rfl)]
    exact BitVec.extractLsb'_eq_self
  exact congrArg (fun v => some (v, rest)) heq

theorem bytes_of_take8 {v : Byte} (h : take8 bs = some (v, rest)) : v :: rest = bs := by
  unfold take8 at h
  split at h
  · cases h; rfl
  · nomatch h

theorem bytes16_of_take16 {v : Half} (h : take16 bs = some (v, rest)) : bytes16 v ++ rest = bs := by
  unfold take16 at h
  split at h
  · cases h
    rw [bytes16_append]
    rfl
  · nomatch h

theorem bytes32_of_take32 {v : Word} (h : take32 bs = some (v, rest)) : bytes32 v ++ rest = bs := by
  unfold take32 at h
  split at h
  · cases h
    rw [bytes32_append]
    rfl
  · nomatch h

/-! ## Displacements -/

theorem decodeDisp32_bytes (d : Disp32) : decodeDisp32 d.mod (d.bytes ++ rest) = some (d, rest) := by
  cases d with
  | absent => rfl
  | d8 b => rfl
  | d32 v => simp [decodeDisp32, Disp32.mod, Disp32.bytes, take32_bytes32]

theorem decodeDisp16_bytes (d : Disp16) : decodeDisp16 d.mod (d.bytes ++ rest) = some (d, rest) := by
  cases d with
  | absent => rfl
  | d8 b => rfl
  | d16 h => simp [decodeDisp16, Disp16.mod, Disp16.bytes, take16_bytes16]

/-- `mod` 11 is the register form; the three others ask for the displacements (rule R82). -/
theorem mod_eq_two {m : BitVec 2} (h3 : m ≠ 3#2) (h0 : m.toNat ≠ 0) (h1 : m.toNat ≠ 1) : m = 2#2 := by
  bv_omega

theorem of_decodeDisp32 {m : BitVec 2} {d : Disp32} (hm : m ≠ 3#2) (h : decodeDisp32 m bs = some (d, rest)) :
    d.mod = m ∧ d.bytes ++ rest = bs := by
  unfold decodeDisp32 at h
  split at h
  case h_1 h0 =>
    cases h
    exact ⟨(BitVec.eq_of_toNat_eq h0).symm, rfl⟩
  case h_2 h1 =>
    obtain ⟨⟨v, r⟩, hr, heq⟩ := Option.map_eq_some_iff.mp h
    cases heq
    exact ⟨(BitVec.eq_of_toNat_eq h1).symm, bytes_of_take8 hr⟩
  case h_3 h0 h1 =>
    obtain ⟨⟨v, r⟩, hr, heq⟩ := Option.map_eq_some_iff.mp h
    cases heq
    exact ⟨(mod_eq_two hm h0 h1).symm, bytes32_of_take32 hr⟩

theorem of_decodeDisp16 {m : BitVec 2} {d : Disp16} (hm : m ≠ 3#2) (h : decodeDisp16 m bs = some (d, rest)) :
    d.mod = m ∧ d.bytes ++ rest = bs := by
  unfold decodeDisp16 at h
  split at h
  case h_1 h0 =>
    cases h
    exact ⟨(BitVec.eq_of_toNat_eq h0).symm, rfl⟩
  case h_2 h1 =>
    obtain ⟨⟨v, r⟩, hr, heq⟩ := Option.map_eq_some_iff.mp h
    cases heq
    exact ⟨(BitVec.eq_of_toNat_eq h1).symm, bytes_of_take8 hr⟩
  case h_3 h0 h1 =>
    obtain ⟨⟨v, r⟩, hr, heq⟩ := Option.map_eq_some_iff.mp h
    cases heq
    exact ⟨(mod_eq_two hm h0 h1).symm, bytes16_of_take16 hr⟩

/-! ## Operands

An operand's `mod` and `rm` fields and the SIB and displacement bytes after ModR/M: the parts of `encodeOperand` that do not
depend on the opcode's `reg` field. -/

def operandMod : MemOp → BitVec 2
  | .based32 _ disp => disp.mod
  | .absolute32 _ => 0
  | .sib _ _ _ disp => disp.mod
  | .sibAbsolute _ _ _ => 0
  | .based16 _ disp => disp.mod
  | .absolute16 _ => 0

def operandRm : MemOp → BitVec 3
  | .based32 base _ => base.num
  | .absolute32 _ => 5
  | .sib _ _ _ _ => 4
  | .sibAbsolute _ _ _ => 4
  | .based16 base _ => base.num
  | .absolute16 _ => 6

def operandTail : MemOp → List Byte
  | .based32 _ disp => disp.bytes
  | .absolute32 v => bytes32 v
  | .sib scale index base disp => fieldsByte scale.num (indexNum index) base.num :: disp.bytes
  | .sibAbsolute scale index v => fieldsByte scale.num (indexNum index) 5 :: bytes32 v
  | .based16 _ disp => disp.bytes
  | .absolute16 h => bytes16 h

theorem encodeOperand_eq (reg : BitVec 3) (op : MemOp) :
    encodeOperand reg op = fieldsByte (operandMod op) reg (operandRm op) :: operandTail op := by
  cases op <;> rfl

theorem disp32_mod_ne_three (d : Disp32) : d.mod ≠ 3#2 := by
  cases d <;> simp [Disp32.mod]

theorem disp16_mod_ne_three (d : Disp16) : d.mod ≠ 3#2 := by
  cases d <;> simp [Disp16.mod]

theorem operandMod_ne_three (op : MemOp) : operandMod op ≠ 3#2 := by
  cases op with
  | based32 _ d | sib _ _ _ d => exact disp32_mod_ne_three d
  | based16 _ d => exact disp16_mod_ne_three d
  | absolute32 | sibAbsolute | absolute16 => exact (by decide : 0#2 ≠ 3#2)

theorem disp32_mod_eq_zero {d : Disp32} : d.mod = 0#2 ↔ d = .absent := by
  cases d <;> simp [Disp32.mod]

theorem disp16_mod_eq_zero {d : Disp16} : d.mod = 0#2 ↔ d = .absent := by
  cases d <;> simp [Disp16.mod]

theorem greg_num_eq_four {g : GReg} : g.num = 4#3 ↔ g = .esp := by
  cases g <;> decide

theorem greg_num_eq_five {g : GReg} : g.num = 5#3 ↔ g = .ebp := by
  cases g <;> decide

theorem base16_num_eq_six {g : Base16} : g.num = 6#3 ↔ g = .bp := by
  cases g <;> decide

/-- EBP as a base without displacement has no encoding of its own: those fields name the form without base (rule R88). -/
theorem not_mod_zero_and_rm_five {g : GReg} {d : Disp32} :
    ¬(d.mod = 0#2 ∧ g.num = 5#3) ↔ (g != .ebp || d != .absent) = true := by
  rw [disp32_mod_eq_zero, greg_num_eq_five]
  simp [imp_iff_not_or, or_comm]

theorem not_mod_zero_and_rm_six {g : Base16} {d : Disp16} :
    ¬(d.mod = 0#2 ∧ g.num = 6#3) ↔ (g != .bp || d != .absent) = true := by
  rw [disp16_mod_eq_zero, base16_num_eq_six]
  simp [imp_iff_not_or, or_comm]

/-- The decoder reads back every operand form that has an encoding (rules R88, R89). -/
theorem decodeOperand_operandTail (h : op.wellFormed = true) :
    decodeOperand op.addrSize (operandMod op) (operandRm op) (operandTail op ++ rest) = some (op, rest) := by
  cases op with
  | based32 base disp =>
    obtain ⟨hesp, hebp⟩ := Bool.and_eq_true_iff.mp h
    have hrm : base.num ≠ 4#3 := fun hn => bne_iff_ne.mp hesp (greg_num_eq_four.mp hn)
    change decodeOperand32 disp.mod base.num (disp.bytes ++ rest) = _
    rw [decodeOperand32, if_neg hrm, if_neg (not_mod_zero_and_rm_five.mpr hebp), decodeDisp32_bytes, greg_ofNum_num]
    rfl
  | absolute32 v =>
    change decodeOperand32 0#2 5#3 (bytes32 v ++ rest) = _
    rw [decodeOperand32, if_neg (by decide), if_pos ⟨rfl, rfl⟩, take32_bytes32]
    rfl
  | sib scale index base disp =>
    obtain ⟨hindex, hebp⟩ := Bool.and_eq_true_iff.mp h
    change decodeSib disp.mod (fieldsByte scale.num (indexNum index) base.num :: (disp.bytes ++ rest)) = _
    rw [decodeSib, modOf_fieldsByte, regOf_fieldsByte, rmOf_fieldsByte, if_neg (not_mod_zero_and_rm_five.mpr hebp),
      decodeDisp32_bytes, scale_ofNum_num, indexOf_indexNum (bne_iff_ne.mp hindex), greg_ofNum_num]
    rfl
  | sibAbsolute scale index v =>
    change decodeSib 0#2 (fieldsByte scale.num (indexNum index) 5#3 :: (bytes32 v ++ rest)) = _
    rw [decodeSib, modOf_fieldsByte, regOf_fieldsByte, rmOf_fieldsByte, if_pos ⟨rfl, rfl⟩, take32_bytes32,
      scale_ofNum_num, indexOf_indexNum (bne_iff_ne.mp h)]
    rfl
  | based16 base disp =>
    change decodeOperand16 disp.mod base.num (disp.bytes ++ rest) = _
    rw [decodeOperand16, if_neg (not_mod_zero_and_rm_six.mpr h), decodeDisp16_bytes, base16_ofNum_num]
    rfl
  | absolute16 v =>
    change decodeOperand16 0#2 6#3 (bytes16 v ++ rest) = _
    rw [decodeOperand16, if_pos ⟨rfl, rfl⟩, take16_bytes16]
    rfl

/-- The operand is the one that ModR/M's `mod` and `rm` and the bytes after it encode, `rest` left over. -/
structure OperandRead (size : AddrSize) (m : BitVec 2) (rm : BitVec 3) (bs : List Byte) (op : MemOp) (rest : List Byte) :
    Prop where
  addrSize : op.addrSize = size
  wellFormed : op.wellFormed = true
  mod : operandMod op = m
  rm : operandRm op = rm
  tail : operandTail op ++ rest = bs

theorem operandRead_of_decodeSib {m : BitVec 2} (hm : m ≠ 3#2) (h : decodeSib m bs = some (op, rest)) :
    OperandRead .a32 m 4 bs op rest := by
  cases bs with
  | nil => nomatch h
  | cons sib bs =>
    rw [decodeSib] at h
    split at h
    · next hnobase =>
      obtain ⟨⟨v, r⟩, hr, heq⟩ := Option.map_eq_some_iff.mp h
      cases heq
      refine ⟨rfl, bne_iff_ne.mpr (indexOf_ne_esp _), hnobase.1.symm, rfl, ?_⟩
      simp [operandTail, bytes32_of_take32 hr, ← hnobase.2, fieldsByte_fields]
    · next hbase =>
      obtain ⟨⟨d, r⟩, hr, heq⟩ := Option.map_eq_some_iff.mp h
      cases heq
      obtain ⟨hmod, hbytes⟩ := of_decodeDisp32 hm hr
      have hwf := not_mod_zero_and_rm_five (g := .ofNum (rmOf sib)) (d := d)
      rw [hmod, greg_num_ofNum] at hwf
      refine ⟨rfl, Bool.and_eq_true_iff.mpr ⟨bne_iff_ne.mpr (indexOf_ne_esp _), hwf.mp hbase⟩, hmod, rfl, ?_⟩
      simp [operandTail, hbytes, fieldsByte_fields]

theorem operandRead_of_decodeOperand32 {m : BitVec 2} {rm : BitVec 3} (hm : m ≠ 3#2)
    (h : decodeOperand32 m rm bs = some (op, rest)) : OperandRead .a32 m rm bs op rest := by
  unfold decodeOperand32 at h
  split at h
  · next hsib =>
    cases hsib
    exact operandRead_of_decodeSib hm h
  · next hsib =>
    split at h
    · next hnobase =>
      obtain ⟨⟨v, r⟩, hr, heq⟩ := Option.map_eq_some_iff.mp h
      cases heq
      exact ⟨rfl, rfl, hnobase.1.symm, hnobase.2.symm, bytes32_of_take32 hr⟩
    · next hbase =>
      obtain ⟨⟨d, r⟩, hr, heq⟩ := Option.map_eq_some_iff.mp h
      cases heq
      obtain ⟨hmod, hbytes⟩ := of_decodeDisp32 hm hr
      have hesp : GReg.ofNum rm ≠ .esp := fun he => hsib (by rw [← greg_num_ofNum rm, he]; rfl)
      have hwf := not_mod_zero_and_rm_five (g := .ofNum rm) (d := d)
      rw [hmod, greg_num_ofNum] at hwf
      exact ⟨rfl, Bool.and_eq_true_iff.mpr ⟨bne_iff_ne.mpr hesp, hwf.mp hbase⟩, hmod, greg_num_ofNum rm, hbytes⟩

theorem operandRead_of_decodeOperand16 {m : BitVec 2} {rm : BitVec 3} (hm : m ≠ 3#2)
    (h : decodeOperand16 m rm bs = some (op, rest)) : OperandRead .a16 m rm bs op rest := by
  unfold decodeOperand16 at h
  split at h
  · next hnobase =>
    obtain ⟨⟨v, r⟩, hr, heq⟩ := Option.map_eq_some_iff.mp h
    cases heq
    exact ⟨rfl, rfl, hnobase.1.symm, hnobase.2.symm, bytes16_of_take16 hr⟩
  · next hbase =>
    obtain ⟨⟨d, r⟩, hr, heq⟩ := Option.map_eq_some_iff.mp h
    cases heq
    obtain ⟨hmod, hbytes⟩ := of_decodeDisp16 hm hr
    have hwf := not_mod_zero_and_rm_six (g := .ofNum rm) (d := d)
    rw [hmod, base16_num_ofNum] at hwf
    exact ⟨rfl, hwf.mp hbase, hmod, base16_num_ofNum rm, hbytes⟩

theorem operandRead_of_decodeOperand {m : BitVec 2} {rm : BitVec 3} (hm : m ≠ 3#2)
    (h : decodeOperand size m rm bs = some (op, rest)) : OperandRead size m rm bs op rest := by
  cases size with
  | a16 => exact operandRead_of_decodeOperand16 hm h
  | a32 => exact operandRead_of_decodeOperand32 hm h

/-! ## FXSAVE and FXRSTOR -/

/-- The `reg` field of the opcode: `/0` for FXSAVE, `/1` for FXRSTOR (rule R81). -/
def fxReg : Bool → BitVec 3
  | true => 0
  | false => 1

theorem encode_fxInstr (w : Bool) (pre : List Prefix) (op : MemOp) :
    encode (fxInstr w pre op) = pre.map Prefix.byte ++ (0x0F#8 :: 0xAE#8 :: encodeOperand (fxReg w) op) := by
  cases w <;> rfl

theorem wellFormed_fxInstr : (fxInstr w pre op).wellFormed dflt = true ↔
    op.wellFormed = true ∧ op.addrSize = addrSizeOf dflt pre := by
  cases w <;> simp [fxInstr, Instr.wellFormed]

theorem decodeModRM_fields {m : BitVec 2} {rm : BitVec 3} (hm : m ≠ 3#2) :
    decodeModRM dflt pre (fieldsByte m (fxReg w) rm :: bs) =
      finishOperand (fxInstr w pre) (decodeOperand (addrSizeOf dflt pre) m rm bs) := by
  rw [decodeModRM, modOf_fieldsByte, regOf_fieldsByte, rmOf_fieldsByte, if_neg hm]
  cases w <;> rfl

/-- The decoder's answer to ModR/M is an instruction that those bytes encode. -/
theorem fxInstr_of_decodeModRM (h : decodeModRM dflt pre bs = .ok i rest) :
    ∃ w op, i = fxInstr w pre op ∧ i.wellFormed dflt = true ∧ encodeOperand (fxReg w) op ++ rest = bs := by
  cases bs with
  | nil => nomatch h
  | cons m bs =>
    by_cases hm : modOf m = 3#2
    · rw [decodeModRM, if_pos hm] at h
      nomatch h
    · have hreg : ∃ w, regOf m = fxReg w := by
        rw [decodeModRM, if_neg hm] at h
        split_ifs at h with h0 h1
        · exact ⟨true, h0⟩
        · exact ⟨false, h1⟩
      obtain ⟨w, hw⟩ := hreg
      rw [← fieldsByte_fields m, hw, decodeModRM_fields hm] at h
      cases hop : decodeOperand (addrSizeOf dflt pre) (modOf m) (rmOf m) bs with
      | none =>
        rw [hop] at h
        nomatch h
      | some r =>
        rw [hop] at h
        cases h
        obtain ⟨hsize, hwf, hmod, hrm, htail⟩ := operandRead_of_decodeOperand hm hop
        refine ⟨w, r.1, rfl, wellFormed_fxInstr.mpr ⟨hwf, hsize⟩, ?_⟩
        rw [encodeOperand_eq, hmod, hrm, ← hw, fieldsByte_fields, List.cons_append, htail]

theorem decode_encode_fxInstr (h : (fxInstr w pre op).wellFormed dflt = true) :
    decode dflt (encode (fxInstr w pre op) ++ rest) = .ok (fxInstr w pre op) rest := by
  obtain ⟨hwf, hsize⟩ := wellFormed_fxInstr.mp h
  rw [encode_fxInstr, encodeOperand_eq]
  simp only [List.append_assoc, List.cons_append]
  rw [decode_modRM, decodeModRM_fields (operandMod_ne_three op), ← hsize, decodeOperand_operandTail hwf]
  rfl

/-! ## Decode and encode -/

/-- Settles O1: the opcode bytes lead to the operand, which is read back form by form. -/
theorem decodeOfEncode : Obligations.DecodeOfEncode := by
  unfold Obligations.DecodeOfEncode
  intro dflt i rest h
  cases i with
  | fxrstor pre op => exact decode_encode_fxInstr (w := false) h
  | fxsave pre op => exact decode_encode_fxInstr (w := true) h
  | sysenter => exact decode_sysenter (pre := [])
  | sysexit => exact decode_sysexit (pre := [])

theorem of_decodePlain {j : Instr} (h : decodePlain pre j bs = .ok i rest) : pre = [] ∧ i = j ∧ rest = bs := by
  unfold decodePlain at h
  split at h
  · cases h
    exact ⟨‹_›, rfl, rfl⟩
  · nomatch h

/-- The decoder's answer after the prefixes is an instruction that they and the bytes after them encode. -/
theorem encode_of_decodeFirst (h : decodeFirst dflt pre bs = .ok i rest) :
    encode i ++ rest = pre.map Prefix.byte ++ bs ∧ i.wellFormed dflt = true := by
  match bs with
  | [] => nomatch h
  | b :: bs =>
    rw [decodeFirst] at h
    split at h
    · next hb =>
      subst hb
      match bs with
      | [] => nomatch h
      | b :: bs =>
        rw [decodeSecond] at h
        split_ifs at h with h34 h35 hAE
        · obtain ⟨rfl, rfl, rfl⟩ := of_decodePlain h
          exact ⟨by rw [h34]; rfl, rfl⟩
        · obtain ⟨rfl, rfl, rfl⟩ := of_decodePlain h
          exact ⟨by rw [h35]; rfl, rfl⟩
        · obtain ⟨w, op, rfl, hwf, henc⟩ := fxInstr_of_decodeModRM h
          refine ⟨?_, hwf⟩
          rw [encode_fxInstr, hAE, ← henc]
          simp
    · nomatch h

/-- Settles O2: what the decoder splits off and reads are the bytes of the instruction it answers. -/
theorem encodeOfDecode : Obligations.EncodeOfDecode := by
  unfold Obligations.EncodeOfDecode
  intro dflt bytes i rest h
  rw [← map_byte_splitPrefixes bytes]
  exact encode_of_decodeFirst h

end Sys2Proof.DecoderProofs

/-! PROOFS. `10_state.md`, `70_reset_and_hazards.md`: the invariant, and what every step keeps. -/

namespace Sys2Proof.InvariantProofs

open Sys2Proof.Machine Sys2Proof.Laws Sys2Proof.FpStateProofs Sys2Proof.FastSystemCallProofs Sys2Proof.ExceptionProofs

variable {s t : State}

/-! ## The model-specific registers -/

@[simp] theorem fxrstorNext_msr (s : State) (addr : Nat → Nat) (pc : Word) (m : Msr) :
    (fxrstorNext s addr pc).msr m = s.msr m := by
  cases m <;> rfl

@[simp] theorem sysenterNext_msr (s : State) (m : Msr) : (sysenterNext s).msr m = s.msr m := by
  cases m <;> rfl

/-! ## The invariant -/

/-- The part of the invariant that speaks of the mode depends on CR0, EFLAGS, CPL and CS alone. -/
theorem modeLegal_congr (hmode : t.mode = s.mode) (hcpl : t.cpl = s.cpl) (h : s.ModeLegal) : t.ModeLegal := by
  unfold State.ModeLegal
  rw [hmode, hcpl]
  exact h

theorem csMatchesCpl_congr (hmode : t.mode = s.mode) (hcpl : t.cpl = s.cpl) (hcs : t.cs = s.cs) (h : s.CsMatchesCpl) :
    t.CsMatchesCpl := by
  unfold State.CsMatchesCpl
  rw [hmode, hcpl, hcs]
  exact h

theorem fxsaveNext_inv (addr : Nat → Nat) (pc : Word) (h : s.Inv) : (fxsaveNext s addr pc).Inv := by
  obtain ⟨hwf, hsaved, hlegal, hcs⟩ := h
  have hmode : (fxsaveNext s addr pc).mode = s.mode := mode_congr rfl rfl
  exact ⟨wf_storeFirst hwf _ _ _, rising_noteSaved _ _ _ _ hsaved, modeLegal_congr hmode rfl hlegal,
    csMatchesCpl_congr hmode rfl rfl hcs⟩

theorem fxrstorNext_inv (addr : Nat → Nat) (pc : Word) (h : s.Inv) : (fxrstorNext s addr pc).Inv := by
  obtain ⟨hwf, hsaved, hlegal, hcs⟩ := h
  have hmode : (fxrstorNext s addr pc).mode = s.mode := mode_congr rfl rfl
  exact ⟨hwf, hsaved, modeLegal_congr hmode rfl hlegal, csMatchesCpl_congr hmode rfl rfl hcs⟩

/-- SYSENTER leaves virtual-8086 mode and loads CS with the RPL 0 of its new CPL (rules R131, R133). -/
theorem sysenterNext_inv (hpe : s.crPE = true) (h : s.Inv) : (sysenterNext s).Inv := by
  obtain ⟨hwf, hsaved, -, -⟩ := h
  refine ⟨hwf, hsaved, fun hmode => ?_, fun _ => extractLsb'_withRpl _ _⟩
  rw [sysenterNext_mode hpe] at hmode
  nomatch hmode

/-- SYSEXIT loads CS with the RPL 3 of its new CPL (rule R142). -/
theorem sysexitNext_inv (h : s.Inv) : (sysexitNext s).Inv := by
  obtain ⟨hwf, hsaved, -, -⟩ := h
  exact ⟨hwf, hsaved, fun _ => rfl, fun _ => extractLsb'_withRpl _ _⟩

/-- Settles O51, instruction by instruction. -/
theorem stepKeepsInvariant : Obligations.StepKeepsInvariant := by
  unfold Obligations.StepKeepsInvariant
  intro s t hinv h
  obtain ⟨_, _, -, rfl⟩ | ⟨_, _, -, rfl⟩ | ⟨hpe, rfl⟩ | ⟨-, -, rfl⟩ := step_next_cases h
  · exact fxsaveNext_inv _ _ hinv
  · exact fxrstorNext_inv _ _ hinv
  · exact sysenterNext_inv hpe hinv
  · exact sysexitNext_inv hinv

/-- Settles O50: the tables are empty after reset, and CR0.PE is clear. -/
theorem resetMeetsInvariant : Obligations.ResetMeetsInvariant := by
  unfold Obligations.ResetMeetsInvariant
  have hmode : State.reset.mode = .realAddress := mode_eq_realAddress.mpr (by decide)
  refine ⟨⟨rfl, rfl, fun h => ?_, fun h => ?_⟩, hmode, by decide⟩
  all_goals
    rw [hmode] at h
    nomatch h

/-! ## What every step keeps -/

/-- Settles O53: no instruction writes CR0, a model-specific register or a parameter. -/
theorem stepKeepsControlRegisters : Obligations.StepKeepsControlRegisters := by
  unfold Obligations.StepKeepsControlRegisters
  intro s t h
  obtain ⟨_, _, -, rfl⟩ | ⟨_, _, -, rfl⟩ | ⟨-, rfl⟩ | ⟨-, -, rfl⟩ := step_next_cases h
  · exact ⟨rfl, fxsaveNext_msr _ _ _, rfl⟩
  · exact ⟨rfl, fxrstorNext_msr _ _ _, rfl⟩
  · exact ⟨rfl, sysenterNext_msr _, rfl⟩
  · exact ⟨rfl, sysexitNext_msr _, rfl⟩

/-- Settles O54: each instruction clears the hidden bit. -/
theorem stepClearsFpPrevNoMem : Obligations.StepClearsFpPrevNoMem := by
  unfold Obligations.StepClearsFpPrevNoMem
  intro s t h
  obtain ⟨_, _, -, rfl⟩ | ⟨_, _, -, rfl⟩ | ⟨-, rfl⟩ | ⟨-, -, rfl⟩ := step_next_cases h
  · exact fxsaveNext_fpPrevNoMem ..
  · exact fxrstorNext_fpPrevNoMem ..
  · exact sysenterNext_fpPrevNoMem _
  · exact sysexitNext_fpPrevNoMem _

/-- Settles O56: of the four next states, FXSAVE's alone has another memory. -/
theorem onlyFxsaveWritesMemory : Obligations.OnlyFxsaveWritesMemory := by
  unfold Obligations.OnlyFxsaveWritesMemory
  intro s t h
  obtain ⟨i, rest, hdecoded, hexec⟩ := step_next h
  cases i with
  | fxsave pre op => exact .inl ⟨pre, op, rest, hdecoded⟩
  | fxrstor pre op =>
    obtain ⟨-, -, -, rfl⟩ := execFxrstor_next hexec
    exact .inr ⟨fxrstorNext_mem .., fxrstorNext_savedBytes ..⟩
  | sysenter =>
    obtain ⟨-, -, -, -, -, -, rfl⟩ := execSysenter_next_iff.mp hexec
    exact .inr ⟨sysenterNext_mem _, sysenterNext_savedBytes _⟩
  | sysexit =>
    obtain ⟨-, -, -, -, -, rfl⟩ := execSysexit_next_iff.mp hexec
    exact .inr ⟨sysexitNext_mem _, sysexitNext_savedBytes _⟩

/-! ## Along runs -/

/-- CR0, the model-specific registers and the parameters of the part are the same at every state of a run. -/
theorem runsTo_keeps_control {n : Nat} (h : RunsTo n s t) :
    t.cr0 = s.cr0 ∧ (∀ m : Msr, t.msr m = s.msr m) ∧ t.params = s.params := by
  refine runsTo_induction (P := fun u => u.cr0 = s.cr0 ∧ (∀ m : Msr, u.msr m = s.msr m) ∧ u.params = s.params)
    (fun u v hstep hu => ?_) n s t h ⟨rfl, fun _ => rfl, rfl⟩
  obtain ⟨hcr0, hmsr, hparams⟩ := hu
  obtain ⟨hcr0', hmsr', hparams'⟩ := stepKeepsControlRegisters u v hstep
  exact ⟨hcr0'.trans hcr0, fun m => (hmsr' m).trans (hmsr m), hparams'.trans hparams⟩

/-- Settles O57: what SYSENTER and SYSEXIT fault on is out of reach of every run. -/
theorem fastCallsFaultUntilSetUp : Obligations.FastCallsFaultUntilSetUp := by
  unfold Obligations.FastCallsFaultUntilSetUp
  intro n s t hrun hpart hunset
  obtain ⟨hcr0, hmsr, hparams⟩ := runsTo_keeps_control hrun
  have hpart' : hasFastSyscall t.params = true := by rw [hparams, hpart]
  have hunset' : t.crPE = false ∨ csMsrZero t = true := by
    rw [csMsrZero_iff, crPE_congr hcr0, show t.sysenterCs = s.sysenterCs from hmsr .sysenterCs]
    exact hunset
  have hcause : csMsrZero t = true ∨ t.crPE = false ∨ t.privilege ≠ 0#2 := hunset'.symm.imp_right .inl
  exact ⟨execSysenter_fault_iff.mpr ⟨hpart', hunset', rfl⟩, execSysexit_fault_iff.mpr ⟨hpart', hcause, rfl⟩⟩

end Sys2Proof.InvariantProofs

/-! PROOFS. `30_encoding.md`: the lengths of the encodings, what the decoder refuses, and the tables of addressing forms. -/

namespace Sys2Proof.AddressingProofs

open Sys2Proof.Machine Sys2Proof.Laws Sys2Proof.ExceptionProofs Sys2Proof.DecoderProofs

variable {dflt size : AddrSize} {pre : List Prefix} {i : Instr} {op : MemOp} {s : State}

/-! ## Encodings of the test vectors -/

/-- Settles O3, by running the decoder on the seven byte sequences. -/
theorem writtenWordsDecode : Obligations.WrittenWordsDecode := by
  unfold Obligations.WrittenWordsDecode
  decide

/-! ## Lengths -/

theorem length_operandTail (op : MemOp) : (operandTail op).length = op.sibLength + op.displacementLength := by
  cases op with
  | based32 _ d | sib _ _ _ d =>
    cases d <;> simp [operandTail, Disp32.bytes, bytes32, MemOp.sibLength, MemOp.displacementLength]
  | based16 _ d => cases d <;> simp [operandTail, Disp16.bytes, bytes16, MemOp.sibLength, MemOp.displacementLength]
  | absolute32 | sibAbsolute | absolute16 => rfl

theorem length_fxInstr (w : Bool) (pre : List Prefix) (op : MemOp) :
    (fxInstr w pre op).length = pre.length + 3 + op.sibLength + op.displacementLength := by
  simp only [Instr.length, encode_fxInstr, encodeOperand_eq, List.length_append, List.length_map, List.length_cons,
    length_operandTail]
  omega

/-- Settles O4: the bytes of `encode`, counted; and by `encodeOfDecode` they are the bytes the decoder takes. -/
theorem instructionLengths : Obligations.InstructionLengths := by
  unfold Obligations.InstructionLengths
  refine ⟨rfl, rfl, fun pre op => ⟨length_fxInstr true pre op, length_fxInstr false pre op⟩, fun dflt bytes i rest h => ?_⟩
  obtain ⟨rfl, -⟩ := encodeOfDecode dflt bytes i rest h
  exact List.length_append

/-! ## Refusals -/

/-- Settles O5: behind prefixes `decodePlain` refuses. -/
theorem prefixedFastCallsRefused : Obligations.PrefixedFastCallsRefused := by
  unfold Obligations.PrefixedFastCallsRefused
  intro dflt p pre rest
  exact ⟨decode_sysenter, decode_sysexit⟩

/-- Settles O6: the byte at which each stage of the decoder refuses. -/
theorem neighbouringEncodingsRefused : Obligations.NeighbouringEncodingsRefused := by
  unfold Obligations.NeighbouringEncodingsRefused
  intro dflt pre rest
  refine ⟨fun b hprefix hb => ?first, fun b hsysenter hsysexit hfx => ?second, fun m hmod => ?registerForm,
    fun m hmod hsave hrestore => ?regField⟩
  case first => rw [decode_of_not_prefix hprefix, decodeFirst, if_neg hb]
  case second => rw [decode_escape, decodeSecond, if_neg hsysenter, if_neg hsysexit, if_neg hfx]
  case registerForm => rw [decode_modRM, decodeModRM, if_pos hmod]
  case regField => rw [decode_modRM, decodeModRM, if_neg hmod, if_neg hsave, if_neg hrestore]

/-! ## Addressing forms -/

/-- Settles O42: the decoder's operand for each encoding, and what it names. -/
theorem addressingExamples : Obligations.AddressingExamples := by
  unfold Obligations.AddressingExamples
  intro s
  refine ⟨⟨.sib .x4 (some .esi) .ebx (.d32 0x100), by decide, rfl, rfl⟩, ⟨.based32 .ebp (.d8 8), by decide, rfl, rfl⟩,
    ⟨.based32 .ebx (.d8 0xF0), by decide, rfl, rfl⟩, ⟨.based16 .bxsi .absent, by decide, rfl, ?_⟩⟩
  simp [operandOffset, effectiveAddress, baseSum16, dispValue16, Regs.low16, Regs.get]

theorem addrSizeOf_of_prefix (h : Prefix.addressSize ∈ pre) : addrSizeOf dflt pre = dflt.other :=
  if_pos (List.contains_iff_mem.mpr h)

theorem addrSizeOf_of_no_prefix (h : Prefix.addressSize ∉ pre) : addrSizeOf dflt pre = dflt :=
  if_neg (by simpa using h)

theorem addrSize_other_other (size : AddrSize) : size.other.other = size := by
  cases size <;> rfl

/-- The default that, with these prefixes, gives an address size. -/
theorem addrSizeOf_eq_of_default (h : dflt = if Prefix.addressSize ∈ pre then size.other else size) :
    addrSizeOf dflt pre = size := by
  split at h
  · rw [addrSizeOf_of_prefix ‹_›, h, addrSize_other_other]
  · rw [addrSizeOf_of_no_prefix ‹_›, h]

/-- The fields and bytes of an operand name it: `decodeOfEncode` for FXSAVE and FXRSTOR, with the fields written out. -/
theorem namesOperand_of_wellFormed (s : State) (op : MemOp) (h : op.wellFormed = true) :
    NamesOperand s op.addrSize (operandMod op) (operandRm op) (operandTail op) (defaultSegment op) (operandOffset s op) := by
  intro dflt pre rest hdflt
  have hdecode (w : Bool) : decode dflt (pre.map Prefix.byte ++ 0x0F#8 :: 0xAE#8 ::
      fieldsByte (operandMod op) (fxReg w) (operandRm op) :: (operandTail op ++ rest)) = .ok (fxInstr w pre op) rest := by
    rw [decode_modRM, decodeModRM_fields (operandMod_ne_three op), addrSizeOf_eq_of_default hdflt,
      decodeOperand_operandTail h]
    rfl
  exact ⟨op, hdecode true, hdecode false, rfl, rfl⟩

/-- `namesOperand_of_wellFormed` with its six terms computed. -/
theorem namesOperand_of_eq {m : BitVec 2} {rm : BitVec 3} {tail : List Byte} {seg : SegName} {off : Word} (op : MemOp)
    (h : op.wellFormed = true) (hsize : op.addrSize = size) (hmod : operandMod op = m) (hrm : operandRm op = rm)
    (htail : operandTail op = tail) (hseg : defaultSegment op = seg) (hoff : operandOffset s op = off) :
    NamesOperand s size m rm tail seg off := by
  subst hsize hmod hrm htail hseg hoff
  exact namesOperand_of_wellFormed s op h

/-- SS for a base ESP or EBP, DS for any other (rule R86). -/
theorem baseSegment32_eq (g : GReg) : baseSegment32 g = if g = .esp ∨ g = .ebp then .ss else .ds := by
  cases g <;> rfl

theorem baseSegment32_of_ne_esp {g : GReg} (h : g ≠ .esp) : baseSegment32 g = if g = .ebp then .ss else .ds := by
  simp [baseSegment32_eq, h]

theorem baseSegment32_of_ne_ebp {g : GReg} (h : g ≠ .ebp) : baseSegment32 g = if g = .esp then .ss else .ds := by
  simp [baseSegment32_eq, h]

theorem baseSegment16_eq (g : Base16) : baseSegment16 g = if g = .bp ∨ g = .bpsi ∨ g = .bpdi then .ss else .ds := by
  cases g <;> rfl

/-! ### 32-bit addressing without SIB byte -/

section
variable {g : GReg} (b0 b1 b2 b3 : Byte)

theorem namesOperand_based32 (hesp : g ≠ .esp) (hebp : g ≠ .ebp) :
    NamesOperand s .a32 0 g.num [] .ds (s.regs.get g) :=
  namesOperand_of_eq (.based32 g .absent) (by simp [MemOp.wellFormed, hesp, hebp]) rfl rfl rfl rfl
    (by simp [defaultSegment, baseSegment32_eq, hesp, hebp]) (by simp [operandOffset, effectiveAddress, dispValue32])

theorem namesOperand_based32_d8 (hesp : g ≠ .esp) :
    NamesOperand s .a32 1 g.num [b0] (if g = .ebp then .ss else .ds) (s.regs.get g + b0.signExtend 32) :=
  namesOperand_of_eq (.based32 g (.d8 b0)) (by simp [MemOp.wellFormed, hesp]) rfl rfl rfl rfl
    (baseSegment32_of_ne_esp hesp) rfl

theorem namesOperand_based32_d32 (hesp : g ≠ .esp) :
    NamesOperand s .a32 2 g.num [b0, b1, b2, b3] (if g = .ebp then .ss else .ds)
      (s.regs.get g + (b3 ++ b2 ++ b1 ++ b0)) :=
  namesOperand_of_eq (.based32 g (.d32 (b3 ++ b2 ++ b1 ++ b0))) (by simp [MemOp.wellFormed, hesp]) rfl rfl rfl
    (bytes32_append ..) (baseSegment32_of_ne_esp hesp) rfl

theorem namesOperand_absolute32 : NamesOperand s .a32 0 5 [b0, b1, b2, b3] .ds (b3 ++ b2 ++ b1 ++ b0) :=
  namesOperand_of_eq (.absolute32 (b3 ++ b2 ++ b1 ++ b0)) rfl rfl rfl rfl (bytes32_append ..) rfl rfl

end

/-! ### 32-bit addressing with SIB byte -/

/-- The index that an index field names: none for the number of ESP (rule R88). -/
theorem indexOf_num (x : GReg) : indexOf x.num = if x = .esp then none else some x := by
  cases x <;> rfl

/-- `2^scale`, from the two bits of the scale field. -/
theorem scaleFactor_ofNum : ∀ scale : BitVec 2, scaleFactor (.ofNum scale) = BitVec.ofNat 32 (2 ^ scale.toNat) := by
  decide

theorem scaledIndex_eq_sibIndexTerm (s : State) (scale : BitVec 2) (x : GReg) :
    scaledIndex s.regs (.ofNum scale) (indexOf x.num) = sibIndexTerm s scale x := by
  rw [sibIndexTerm, indexOf_num]
  split
  · rfl
  · rw [scaledIndex, scaleFactor_ofNum]

section
variable {g : GReg} (scale : BitVec 2) (x : GReg) (b0 b1 b2 b3 : Byte)

/-- The SIB byte of the operand made from the three fields of a SIB byte. -/
theorem sib_fieldsByte (base : BitVec 3) : fieldsByte (Scale.ofNum scale).num (indexNum (indexOf x.num)) base =
    scale ++ x.num ++ base := by
  rw [scale_num_ofNum, indexNum_indexOf, fieldsByte]

theorem sib_wellFormed (d : Disp32) (h : g ≠ .ebp ∨ d ≠ .absent) :
    (MemOp.sib (.ofNum scale) (indexOf x.num) g d).wellFormed = true := by
  simpa [MemOp.wellFormed, indexOf_ne_esp] using h

theorem sib_offset (d : Disp32) : operandOffset s (.sib (.ofNum scale) (indexOf x.num) g d) =
    s.regs.get g + sibIndexTerm s scale x + dispValue32 d := by
  rw [operandOffset, effectiveAddress, scaledIndex_eq_sibIndexTerm]

theorem namesOperand_sib (hebp : g ≠ .ebp) :
    NamesOperand s .a32 0 4 [scale ++ x.num ++ g.num] (if g = .esp then .ss else .ds)
      (s.regs.get g + sibIndexTerm s scale x) :=
  namesOperand_of_eq (.sib (.ofNum scale) (indexOf x.num) g .absent) (sib_wellFormed _ _ _ (.inl hebp)) rfl rfl rfl
    (congrArg (· :: []) (sib_fieldsByte ..)) (baseSegment32_of_ne_ebp hebp) ((sib_offset ..).trans (BitVec.add_zero _))

theorem namesOperand_sibAbsolute :
    NamesOperand s .a32 0 4 [scale ++ x.num ++ 5#3, b0, b1, b2, b3] .ds
      ((b3 ++ b2 ++ b1 ++ b0) + sibIndexTerm s scale x) :=
  namesOperand_of_eq (.sibAbsolute (.ofNum scale) (indexOf x.num) (b3 ++ b2 ++ b1 ++ b0))
    (bne_iff_ne.mpr (indexOf_ne_esp _)) rfl rfl rfl (congrArg₂ List.cons (sib_fieldsByte ..) (bytes32_append ..)) rfl
    (by rw [operandOffset, effectiveAddress, scaledIndex_eq_sibIndexTerm])

theorem namesOperand_sib_d8 :
    NamesOperand s .a32 1 4 [scale ++ x.num ++ g.num, b0] (if g = .esp ∨ g = .ebp then .ss else .ds)
      (s.regs.get g + sibIndexTerm s scale x + b0.signExtend 32) :=
  namesOperand_of_eq (.sib (.ofNum scale) (indexOf x.num) g (.d8 b0)) (sib_wellFormed _ _ _ (.inr nofun)) rfl rfl rfl
    (congrArg (· :: [b0]) (sib_fieldsByte ..)) (baseSegment32_eq g) (sib_offset ..)

theorem namesOperand_sib_d32 :
    NamesOperand s .a32 2 4 [scale ++ x.num ++ g.num, b0, b1, b2, b3] (if g = .esp ∨ g = .ebp then .ss else .ds)
      (s.regs.get g + sibIndexTerm s scale x + (b3 ++ b2 ++ b1 ++ b0)) :=
  namesOperand_of_eq (.sib (.ofNum scale) (indexOf x.num) g (.d32 (b3 ++ b2 ++ b1 ++ b0)))
    (sib_wellFormed _ _ _ (.inr nofun)) rfl rfl rfl (congrArg₂ List.cons (sib_fieldsByte ..) (bytes32_append ..))
    (baseSegment32_eq g) (sib_offset ..)

end

/-! ### 16-bit addressing -/

section
variable (g : Base16) (b0 b1 : Byte)

theorem namesOperand_based16 (hbp : g ≠ .bp) :
    NamesOperand s .a16 0 g.num [] (baseSegment16 g) ((baseSum16 s.regs g).setWidth 32) :=
  namesOperand_of_eq (.based16 g .absent) (by simp [MemOp.wellFormed, hbp]) rfl rfl rfl rfl rfl
    (by simp [operandOffset, effectiveAddress, dispValue16])

theorem namesOperand_based16_d8 :
    NamesOperand s .a16 1 g.num [b0] (baseSegment16 g) ((baseSum16 s.regs g + b0.signExtend 16).setWidth 32) :=
  namesOperand_of_eq (.based16 g (.d8 b0)) (by simp [MemOp.wellFormed]) rfl rfl rfl rfl rfl rfl

theorem namesOperand_based16_d16 :
    NamesOperand s .a16 2 g.num [b0, b1] (baseSegment16 g) ((baseSum16 s.regs g + (b1 ++ b0)).setWidth 32) :=
  namesOperand_of_eq (.based16 g (.d16 (b1 ++ b0))) (by simp [MemOp.wellFormed]) rfl rfl rfl (bytes16_append ..) rfl rfl

theorem namesOperand_absolute16 : NamesOperand s .a16 0 6 [b0, b1] .ds ((b1 ++ b0 : Half).setWidth 32) :=
  namesOperand_of_eq (.absolute16 (b1 ++ b0)) rfl rfl rfl rfl (bytes16_append ..) rfl rfl

/-- The three rows of a base sum; `rm` 110 under `mod` 00 is `disp16` alone (rule R89). -/
theorem namesOperand_row16 (s : State) :
    (g.num ≠ 6#3 → NamesOperand s .a16 0 g.num [] (baseSegment16 g) ((baseSum16 s.regs g).setWidth 32)) ∧
      NamesOperand s .a16 1 g.num [b0] (baseSegment16 g) ((baseSum16 s.regs g + b0.signExtend 16).setWidth 32) ∧
      NamesOperand s .a16 2 g.num [b0, b1] (baseSegment16 g) ((baseSum16 s.regs g + (b1 ++ b0)).setWidth 32) :=
  ⟨fun h => namesOperand_based16 g fun hbp => h (base16_num_eq_six.mpr hbp), namesOperand_based16_d8 g b0,
    namesOperand_based16_d16 g b0 b1⟩

end

/-- Settles O58, row by row: the operand of each row is the one whose fields the row lists. -/
theorem addressingForms : Obligations.AddressingForms := by
  unfold Obligations.AddressingForms
  refine ⟨rfl, fun s b0 b1 b2 b3 => ⟨fun g => ?based32, namesOperand_absolute32 b0 b1 b2 b3, fun scale x g => ?sib,
    fun rm sum seg hrow => ?based16, namesOperand_absolute16 b0 b1⟩⟩
  case based32 =>
    exact ⟨namesOperand_based32, namesOperand_based32_d8 b0, namesOperand_based32_d32 b0 b1 b2 b3⟩
  case sib =>
    exact ⟨namesOperand_sib scale x, namesOperand_sibAbsolute scale x b0 b1 b2 b3, namesOperand_sib_d8 scale x b0,
      namesOperand_sib_d32 scale x b0 b1 b2 b3⟩
  case based16 =>
    have hbase : ∃ g : Base16, g.num = rm ∧ baseSum16 s.regs g = sum ∧ baseSegment16 g = seg := by
      simp only [List.mem_cons, List.not_mem_nil, or_false, Prod.mk.injEq] at hrow
      rcases hrow with ⟨rfl, rfl, rfl⟩ | ⟨rfl, rfl, rfl⟩ | ⟨rfl, rfl, rfl⟩ | ⟨rfl, rfl, rfl⟩ | ⟨rfl, rfl, rfl⟩ |
        ⟨rfl, rfl, rfl⟩ | ⟨rfl, rfl, rfl⟩ | ⟨rfl, rfl, rfl⟩
      · exact ⟨.bxsi, rfl, rfl, rfl⟩
      · exact ⟨.bxdi, rfl, rfl, rfl⟩
      · exact ⟨.bpsi, rfl, rfl, rfl⟩
      · exact ⟨.bpdi, rfl, rfl, rfl⟩
      · exact ⟨.si, rfl, rfl, rfl⟩
      · exact ⟨.di, rfl, rfl, rfl⟩
      · exact ⟨.bp, rfl, rfl, rfl⟩
      · exact ⟨.bx, rfl, rfl, rfl⟩
    obtain ⟨g, rfl, rfl, rfl⟩ := hbase
    exact namesOperand_row16 g b0 b1 s

/-! ## Default segments, overrides and the default address size -/

/-- Without an override the operand has its default segment. -/
theorem operandSegment_of_no_override (h : ∀ x, Prefix.segment x ∉ pre) : operandSegment s pre op = defaultSegment op := by
  have hnil : overrides pre = [] := List.eq_nil_iff_forall_not_mem.mpr fun x hx => h x (mem_overrides.mp hx)
  rw [operandSegment, hnil]

/-- The segment of an operand with overrides is one of them. -/
theorem operandSegment_mem (h : ∃ x, Prefix.segment x ∈ pre) : Prefix.segment (operandSegment s pre op) ∈ pre := by
  obtain ⟨x, hx⟩ := h
  rw [← mem_overrides] at hx ⊢
  rw [operandSegment]
  cases hov : overrides pre with
  | nil => rw [hov] at hx; nomatch hx
  | cons y rest =>
    simp only
    split
    · exact List.mem_cons_self
    · have hlt : Config.overrideChoice s.draws % (rest.length + 1) < (y :: rest).length :=
        Nat.mod_lt _ (Nat.succ_pos _)
      rw [List.getD_eq_getElem _ _ hlt]
      exact List.getElem_mem hlt

/-- Settles O43: the default segments form by form, and what one or several overrides put in their place. -/
theorem segmentOverrides : Obligations.SegmentOverrides := by
  unfold Obligations.SegmentOverrides
  refine ⟨fun g _ => baseSegment32_eq g, fun _ => rfl, fun _ _ g _ => baseSegment32_eq g, fun _ _ _ => rfl,
    fun g _ => baseSegment16_eq g, fun _ => rfl, fun s pre op => ⟨operandSegment_of_no_override, fun x hx honly => ?_,
    operandSegment_mem⟩⟩
  exact honly _ (operandSegment_mem ⟨x, hx⟩)

/-- Settles O59: the mode decides the default, and 67h switches it. -/
theorem defaultAddressSize : Obligations.DefaultAddressSize := by
  unfold Obligations.DefaultAddressSize
  refine ⟨fun s => ⟨mode_eq_realAddress, mode_eq_virtual8086, mode_eq_protectedMode, ?sixteen, ?code16, ?code32⟩,
    fun dflt pre => ⟨addrSizeOf_of_no_prefix, fun h => ⟨addrSizeOf_of_prefix h, addrSizeOf_of_prefix h⟩⟩⟩
  case sixteen =>
    rintro (hmode | hmode) <;> exact if_neg (by simp [hmode])
  case code16 =>
    intro _ hd
    exact if_neg (by simp [hd])
  case code32 =>
    intro hmode hd
    exact if_pos ⟨hmode, hd⟩

end Sys2Proof.AddressingProofs

/-! PROOFS. `10_state.md` section 2, `30_encoding.md` section 6, `60_exceptions.md`: what a step fetches and runs, what stops
it, and the faults it raises. -/

namespace Sys2Proof.StepProofs

open Sys2Proof.Machine Sys2Proof.Laws Sys2Proof.ExceptionProofs Sys2Proof.DecoderProofs Sys2Proof.AddressingProofs

variable {s t : State} {i : Instr} {pre : List Prefix} {op : MemOp} {seg : SegName} {off pc : Word} {f : Fault} {w : Bool}
  {bytes rest : List Byte} {why : Stop} {code : Nat}

/-! ## The decoded instruction -/

theorem step_of_decoded (h : s.decoded = .ok i rest) : step s = exec i s := by
  rw [step, h]

/-- Settles O7: the step adds nothing to `exec`. -/
theorem stepRunsDecodedInstruction : Obligations.StepRunsDecodedInstruction := by
  unfold Obligations.StepRunsDecodedInstruction
  intro s i rest h
  exact step_of_decoded h

/-- Settles O8: the bytes fetched begin with the encoding, so `decodeOfEncode` says what they decode to. -/
theorem stepRunsInstructionInMemory : Obligations.StepRunsInstructionInMemory := by
  unfold Obligations.StepRunsInstructionInMemory
  intro s i hwf hroom hbytes
  obtain ⟨rest, hcode⟩ := fetchBytes_of_placed s (encode i) (codeRoom s) s.eip.toNat hroom hbytes
  have hdecoded : s.decoded = .ok i rest := by
    rw [State.decoded, State.codeBytes, hcode, decodeOfEncode _ _ _ hwf]
  exact step_of_decoded hdecoded

/-! ## Instructions cut short -/

/-- An answer on a proper beginning would be one on the whole encoding that leaves over the bytes cut off; but the whole
encoding leaves none over. -/
theorem decode_take_encode {dflt : AddrSize} {k : Nat} (hwf : i.wellFormed dflt = true) (hk : k < i.length) :
    decode dflt ((encode i).take k) = .truncated := by
  by_contra hanswer
  have hwhole : decode dflt (encode i) = .ok i [] := by
    simpa using decodeOfEncode dflt i [] hwf
  have hext := decode_append ((encode i).drop k) hanswer
  rw [List.take_append_drop, hwhole] at hext
  cases hdecode : decode dflt ((encode i).take k) with
  | ok j rest =>
    rw [hdecode] at hext
    obtain ⟨-, hnil⟩ := Decoded.ok.inj hext
    have hdrop : (encode i).drop k = [] := (List.append_eq_nil_iff.mp hnil.symm).2
    exact absurd (List.drop_eq_nil_iff.mp hdrop) (Nat.not_le.mpr hk)
  | refused reason => rw [hdecode] at hext; nomatch hext
  | truncated => exact hanswer hdecode

/-- Where the room ends or the next byte stops the fetch, the bytes fetched are all the decoder reads. -/
theorem codeBytes_eq_of_stop (hf : s.Fetches bytes)
    (hstop : bytes.length < codeRoom s → ∃ why, fetchByte s (s.eip.toNat + bytes.length) = .stop why) :
    s.codeBytes = bytes :=
  fetchBytes_eq_of_stop s bytes _ _ hf.1 hf.2 hstop

theorem step_of_truncated (h : decode s.defaultAddrSize s.codeBytes = .truncated) :
    step s = (fetchStop s (codeRoom s) s.eip.toNat).outcome := by
  rw [step, State.decoded, h]

/-- Bytes that begin an instruction and fill the room: the instruction is outside the limit (rule R22). -/
theorem step_of_room_end (hf : s.Fetches bytes) (htrunc : decode s.defaultAddrSize bytes = .truncated)
    (hend : codeRoom s ≤ bytes.length) : step s = .refused .codeOutsideLimit := by
  have hcode : s.codeBytes = bytes := codeBytes_eq_of_stop hf fun hlt => absurd hlt (Nat.not_lt.mpr hend)
  rw [step_of_truncated (hcode ▸ htrunc)]
  obtain ⟨-, -, ⟨-, hstop⟩ | ⟨hlt, -⟩⟩ := fetch_cases s (codeRoom s) s.eip.toNat
  · rw [hstop]
    rfl
  · rw [← State.codeBytes, hcode] at hlt
    omega

/-- Bytes that begin an instruction, and a next byte inside the limit that stops the fetch: so it stops the step. -/
theorem step_of_fetch_stop (hf : s.Fetches bytes) (htrunc : decode s.defaultAddrSize bytes = .truncated)
    (hroom : bytes.length < codeRoom s) (hstop : fetchByte s (s.eip.toNat + bytes.length) = .stop why) :
    step s = why.outcome := by
  have hcode : s.codeBytes = bytes := codeBytes_eq_of_stop hf fun _ => ⟨why, hstop⟩
  rw [step_of_truncated (hcode ▸ htrunc)]
  obtain ⟨-, -, ⟨hlen, -⟩ | ⟨-, hbyte⟩⟩ := fetch_cases s (codeRoom s) s.eip.toNat
  · rw [← State.codeBytes, hcode] at hlen
    omega
  · rw [← State.codeBytes, hcode, hstop] at hbyte
    cases hbyte
    rfl

theorem fetchByte_of_saved {k : Nat} {phys : Word} (h : translateLinear s (instructionAddress s k) false = .to phys)
    (hsaved : phys.toNat ∈ s.savedBytes) : fetchByte s (s.eip.toNat + k) = .stop (.refuse .fetchOfSavedByte) := by
  rw [instructionAddress] at h
  obtain ⟨code, hcode, -⟩ | ⟨p, hp, ⟨-, hstop⟩ | ⟨hnot, -⟩⟩ := fetchByte_cases s (s.eip.toNat + k)
  · rw [h] at hcode
    nomatch hcode
  · exact hstop
  · rw [h] at hp
    cases hp
    contradiction

theorem fetchByte_of_fault {k : Nat} (h : translateLinear s (instructionAddress s k) false = .fault code) :
    fetchByte s (s.eip.toNat + k) = .stop (.fault (.pageFault code s.eip)) := by
  rw [instructionAddress] at h
  obtain ⟨code', hcode, hstop⟩ | ⟨p, hp, -⟩ := fetchByte_cases s (s.eip.toNat + k)
  · rw [h] at hcode
    cases hcode
    exact hstop
  · rw [h] at hp
    nomatch hp

/-- A byte at or below the limit of CS is one the fetch has room for. -/
theorem lt_codeRoom {k : Nat} : k < codeRoom s ↔ s.eip.toNat + k ≤ s.cs.effLimit.toNat := by
  unfold codeRoom
  omega

/-- Settles O9: the next byte stops the step, since the bytes before it begin an instruction. -/
theorem fetchStopsByName : Obligations.FetchStopsByName := by
  unfold Obligations.FetchStopsByName
  refine ⟨fun s bytes hf htrunc => ⟨fun hlimit => ?outside, fun hinside => ⟨fun phys hphys hsaved => ?saved,
    fun code hcode => ?fault⟩⟩, fun dflt i k => decode_take_encode⟩
  case outside =>
    refine step_of_room_end hf htrunc (Nat.not_lt.mp fun hlt => ?_)
    have := lt_codeRoom.mp hlt
    omega
  case saved => exact step_of_fetch_stop hf htrunc (lt_codeRoom.mpr hinside) (fetchByte_of_saved hphys hsaved)
  case fault => exact step_of_fetch_stop hf htrunc (lt_codeRoom.mpr hinside) (fetchByte_of_fault hcode)

/-! ## The exceptions that apply -/

theorem limitFault_eq (seg : SegName) (pc : Word) :
    seg ≠ .ss ∧ limitFault seg pc = .generalProtection pc ∨ seg = .ss ∧ limitFault seg pc = .stackSegment pc := by
  cases seg <;> simp [limitFault]

theorem outsideSegment_iff : outsideSegment s seg off w = true ↔ s.mode = .protectedMode ∧
    (0xFFFFFE00 < off.toNat ∨ segCheck s.params seg (s.seg seg) off w = false) := by
  simp [outsideSegment]

theorem outside64K_iff : outside64K s off = true ↔ s.mode ≠ .protectedMode ∧ 0xFFFF < off.toNat + 511 := by
  simp [outside64K, operandSize_eq]

/-- The limit fault by segment: #SS(0) for SS, #GP(0) for the others (rules R67, R162). -/
theorem limit_cause_iff : outsideSegment s seg off w = true ∧ f = limitFault seg s.eip ↔
    (f = .generalProtection s.eip ∧ s.mode = .protectedMode ∧ seg ≠ .ss ∧
      (0xFFFFFE00 < off.toNat ∨ segCheck s.params seg (s.seg seg) off w = false)) ∨
    (f = .stackSegment s.eip ∧ s.mode = .protectedMode ∧ seg = .ss ∧
      (0xFFFFFE00 < off.toNat ∨ segCheck s.params seg (s.seg seg) off w = false)) := by
  rw [outsideSegment_iff]
  obtain ⟨hseg, hfault⟩ | ⟨hseg, hfault⟩ := limitFault_eq seg s.eip
  all_goals
    rw [hfault]
    tauto

/-- #PF comes from the translation of a byte of the operand, and so not in real-address mode (rules R71, R104). -/
theorem page_cause_iff :
    (∃ b < 512, ∃ code, translateLinear s (linearAddress (s.seg seg) off b) w = .fault code ∧ f = .pageFault code s.eip) ↔
    ∃ code, f = .pageFault code s.eip ∧ s.mode ≠ .realAddress ∧
      ∃ b < 512, translateLinear s (linearAddress (s.seg seg) off b) w = .fault code := by
  constructor
  · rintro ⟨b, hb, code, hfault, rfl⟩
    exact ⟨code, rfl, (translateLinear_eq_fault hfault).1, b, hb, hfault⟩
  · rintro ⟨code, rfl, -, b, hb, hfault⟩
    exact ⟨b, hb, code, hfault, rfl⟩

/-- Settles O36: each cause of `applicableFaults` is the table's, with the limit fault told apart by segment. -/
theorem exceptionMatrix : Obligations.ExceptionMatrix := by
  unfold Obligations.ExceptionMatrix
  refine ⟨fun s pre seg off w f => ?fx, fun s f h => ?sysenter, fun s f h => ?sysexit⟩
  case fx =>
    rw [mem_applicableFaults, limit_cause_iff, page_cause_iff, outside64K_iff, misaligned_iff, alignmentCheckOn_iff]
    ac_nf
  case sysenter =>
    obtain ⟨-, hcause, rfl⟩ := execSysenter_fault_iff.mp h
    exact ⟨rfl, hcause.imp mode_eq_realAddress.mpr csMsrZero_iff.mp⟩
  case sysexit =>
    obtain ⟨-, hcause, rfl⟩ := execSysexit_fault_iff.mp h
    rw [csMsrZero_iff, ← mode_eq_realAddress] at hcause
    exact ⟨rfl, or_left_comm.mp hcause⟩

/-- Settles O37: an exception that stops FXSAVE or FXRSTOR is one that applies, and one that applies stops them. -/
theorem reportsOneApplicableException : Obligations.ReportsOneApplicableException := by
  unfold Obligations.ReportsOneApplicableException
  intro s pre op
  have honly (w : Bool) (f : Fault) (h : exec (fxInstr w pre op) s = .fault f) :
      f ∈ applicableFaults s pre (operandSegment s pre op) (operandOffset s op) w :=
    fxStop_fault (exec_fxInstr_fault_iff.mp h)
  refine ⟨honly true, honly false, fun hpart hrep hrepne hsize hbase => ?_⟩
  have hres : hasReservedPrefix pre = false := hasReservedPrefix_eq_false.mpr ⟨hrep, hrepne, hsize⟩
  have hsome (w : Bool) (h : applicableFaults s pre (operandSegment s pre op) (operandOffset s op) w ≠ []) :
      ∃ f, exec (fxInstr w pre op) s = .fault f := by
    obtain ⟨g, hg⟩ := List.exists_mem_of_ne_nil _ h
    obtain ⟨f, -, hf⟩ := exists_exec_fxInstr_fault hres hpart hbase hg
    exact ⟨f, hf⟩
  exact ⟨hsome true, hsome false⟩

/-! ## The faults of a step -/

/-- Every exception that applies carries the `pc` (rule R177). -/
theorem pc_of_mem_applicableFaults (h : f ∈ applicableFaults s pre seg off w) : f.pc = s.eip := by
  obtain ⟨-, rfl⟩ | ⟨-, rfl⟩ | ⟨-, rfl⟩ | ⟨-, rfl⟩ | ⟨-, rfl⟩ | ⟨_, _, _, -, rfl⟩ | ⟨-, rfl⟩ := mem_applicableFaults.mp h
  case inr.inr.inl => cases seg <;> rfl
  all_goals rfl

/-- The #PF among the exceptions that apply. -/
theorem pageFault_mem_applicableFaults (h : .pageFault code pc ∈ applicableFaults s pre seg off w) :
    s.mode ≠ .realAddress ∧ ∃ b < 512, translateLinear s (linearAddress (s.seg seg) off b) w = .fault code := by
  obtain ⟨-, ⟨⟩⟩ | ⟨-, ⟨⟩⟩ | ⟨-, hlimit⟩ | ⟨-, ⟨⟩⟩ | ⟨-, ⟨⟩⟩ | hpage | ⟨-, ⟨⟩⟩ := mem_applicableFaults.mp h
  · cases seg <;> nomatch hlimit
  · obtain ⟨code, ⟨⟩, hmode, hfault⟩ := page_cause_iff.mp hpage
    exact ⟨hmode, hfault⟩

/-- All a step can raise: an exception of the decoded instruction, or #PF on the next byte of one not yet complete. -/
theorem step_fault_cases (h : step s = .fault f) :
    (∃ i rest, s.decoded = .ok i rest ∧ exec i s = .fault f) ∨
    (∃ code, f = .pageFault code s.eip ∧ s.Fetches s.codeBytes ∧ s.decoded = .truncated ∧
      s.eip.toNat + s.codeBytes.length ≤ s.cs.effLimit.toNat ∧
      translateLinear s (instructionAddress s s.codeBytes.length) false = .fault code) := by
  unfold step at h
  split at h
  · next i rest hdecoded => exact .inl ⟨i, rest, hdecoded, h⟩
  · nomatch h
  · next htrunc =>
    have hstop := eq_fault_of_outcome_eq_fault h
    obtain ⟨hroom, hbytes, ⟨-, hend⟩ | ⟨hlt, hbyte⟩⟩ := fetch_cases s (codeRoom s) s.eip.toNat
    · rw [hend] at hstop
      nomatch hstop
    · rw [hstop, ← State.codeBytes] at hbyte
      obtain ⟨code, hcode, hstop'⟩ | ⟨_, -, ⟨-, hstop'⟩ | ⟨-, hstop'⟩⟩ :=
        fetchByte_cases s (s.eip.toNat + s.codeBytes.length)
      all_goals
        rw [hbyte] at hstop'
        cases hstop'
      exact .inr ⟨code, rfl, ⟨hroom, hbytes⟩, htrunc, lt_codeRoom.mp hlt, hcode⟩

/-- The exceptions of an instruction carry the `pc` (rule R177). -/
theorem exec_fault_pc (h : exec i s = .fault f) : f.pc = s.eip := by
  cases i with
  | fxsave pre op => exact pc_of_mem_applicableFaults (fxStop_fault (exec_fxInstr_fault_iff (w := true).mp h))
  | fxrstor pre op => exact pc_of_mem_applicableFaults (fxStop_fault (exec_fxInstr_fault_iff (w := false).mp h))
  | sysenter => rw [exec_fastCall_fault (.inl rfl) h]; rfl
  | sysexit => rw [exec_fastCall_fault (.inr rfl) h]; rfl

/-- #PF of an instruction comes from a byte of the operand of FXSAVE (a write) or of FXRSTOR (a read). -/
theorem exec_pageFault (h : exec i s = .fault (.pageFault code pc)) : s.mode ≠ .realAddress ∧
    ∃ w pre op, i = fxInstr w pre op ∧ ∃ b < 512,
      translateLinear s (linearAddress (s.seg (operandSegment s pre op)) (operandOffset s op) b) w = .fault code := by
  have hfx (w : Bool) (pre : List Prefix) (op : MemOp) (h : exec (fxInstr w pre op) s = .fault (.pageFault code pc)) :=
    pageFault_mem_applicableFaults (fxStop_fault (exec_fxInstr_fault_iff.mp h))
  cases i with
  | fxsave pre op =>
    obtain ⟨hmode, hfault⟩ := hfx true pre op h
    exact ⟨hmode, true, pre, op, rfl, hfault⟩
  | fxrstor pre op =>
    obtain ⟨hmode, hfault⟩ := hfx false pre op h
    exact ⟨hmode, false, pre, op, rfl, hfault⟩
  | sysenter => nomatch exec_fastCall_fault (.inl rfl) h
  | sysexit => nomatch exec_fastCall_fault (.inr rfl) h

/-- Settles O41: the fault is one of the decoded instruction, or #PF of the fetch. -/
theorem faultsCarryPcAndCode : Obligations.FaultsCarryPcAndCode := by
  unfold Obligations.FaultsCarryPcAndCode
  intro s f h
  refine ⟨?pc, ?zero, ?none, ?pageFault⟩
  case pc =>
    obtain ⟨i, rest, -, hexec⟩ | ⟨code, rfl, -⟩ := step_fault_cases h
    · exact exec_fault_pc hexec
    · rfl
  case zero => rintro (rfl | rfl | rfl) <;> rfl
  case none => rintro (rfl | rfl | rfl) <;> rfl
  case pageFault =>
    rintro code rfl
    obtain ⟨i, rest, hdecoded, hexec⟩ | ⟨code', hcode, hfetches, htrunc, hlimit, hfault⟩ := step_fault_cases h
    · obtain ⟨hmode, w, pre, op, rfl, hfault⟩ := exec_pageFault hexec
      cases w with
      | true => exact ⟨rfl, hmode, .inr (.inl ⟨pre, op, rest, hdecoded, hfault⟩)⟩
      | false => exact ⟨rfl, hmode, .inr (.inr ⟨pre, op, rest, hdecoded, hfault⟩)⟩
    · cases hcode
      exact ⟨rfl, (translateLinear_eq_fault hfault).1, .inl ⟨_, hfetches, htrunc, hlimit, hfault⟩⟩

end Sys2Proof.StepProofs

/-! PROOFS. `41_fast_system_call.md`: when SYSENTER and SYSEXIT fault or are refused, what they leave alone, and what
they leave behind together. -/

namespace Sys2Proof.FastCallProofs

open Sys2Proof.Machine Sys2Proof.Laws Sys2Proof.FastSystemCallProofs Sys2Proof.ExceptionProofs

variable {s t : State} {f : Fault}

/-! ## Presence -/

/-- Settles O23: the test's three parts as propositions. -/
theorem fastSyscallPresence : Obligations.FastSyscallPresence := by
  unfold Obligations.FastSyscallPresence
  intro p
  simp only [hasFastSyscall, Bool.and_eq_true, Bool.not_eq_true', Bool.eq_false_iff, ne_eq, beq_iff_eq, decide_eq_true_eq,
    and_assoc]

/-! ## Faults -/

/-- Settles O14: the two tests before the refusals. -/
theorem sysenterFaults : Obligations.SysenterFaults := by
  unfold Obligations.SysenterFaults
  intro s f hpart
  refine execSysenter_fault_iff.trans ?_
  rw [csMsrZero_iff, and_iff_right hpart]

theorem privilege_of_virtual8086 (h : s.mode = .virtual8086) : s.privilege = 3#2 :=
  if_pos h

/-- Settles O18: the privilege level of virtual-8086 mode is 3. -/
theorem sysexitFaultsInVirtual8086 : Obligations.SysexitFaultsInVirtual8086 := by
  unfold Obligations.SysexitFaultsInVirtual8086
  intro s hpart hmode
  have hpriv : s.privilege ≠ 0#2 := by
    rw [privilege_of_virtual8086 hmode]
    decide
  exact execSysexit_fault_iff.mpr ⟨hpart, .inr (.inr hpriv), rfl⟩

/-! ## Refusals -/

theorem selectorSettled_eq_false {msr : MsrWord} {sum : Nat} (h : msr.toNat < 4 ∨ 0xFFFF < msr.toNat + sum) :
    selectorSettled msr sum = false := by
  rw [← Bool.not_eq_true, selectorSettled_iff]
  omega

theorem csMsrZero_eq_false_of_ne (h : s.sysenterCs.setWidth 32 ≠ 0#32) : csMsrZero s = false :=
  Bool.eq_false_iff.mpr fun hz => h (csMsrZero_iff.mp hz)

theorem exec_sysenter_of_unsettled (hpart : hasFastSyscall s.params = true) (hpe : s.crPE = true)
    (hzero : csMsrZero s = false) (hsel : selectorSettled s.sysenterCs 8 = false) :
    exec .sysenter s = .refused .selectorNotSettled := by
  change execSysenter s = _
  simp [execSysenter, hpart, hpe, hzero, hsel]

theorem exec_sysenter_of_above32 (hpart : hasFastSyscall s.params = true) (hpe : s.crPE = true)
    (hsel : selectorSettled s.sysenterCs 8 = true)
    (habove : above32 s.sysenterEsp = true ∨ above32 s.sysenterEip = true) :
    exec .sysenter s = .refused .msrAbove32Bits := by
  change execSysenter s = _
  simp [execSysenter, hpart, hpe, csMsrZero_eq_false_of_settled hsel, hsel, habove]

theorem exec_sysexit_of_unsettled (hpart : hasFastSyscall s.params = true) (hpe : s.crPE = true)
    (hzero : csMsrZero s = false) (hpriv : s.privilege = 0#2) (hsel : selectorSettled s.sysenterCs 24 = false) :
    exec .sysexit s = .refused .selectorNotSettled := by
  change execSysexit s = _
  simp [execSysexit, hpart, hpe, hzero, hpriv, hsel]

/-- Settles O21: where the zero test and the privilege test pass, the refusals of rule R139 follow. -/
theorem unsettledMsrsRefused : Obligations.UnsettledMsrsRefused := by
  unfold Obligations.UnsettledMsrsRefused
  intro s hpart hpe hzero
  have hzero' := csMsrZero_eq_false_of_ne hzero
  refine ⟨fun hrange => ?enter, fun hlow hhigh habove => ?above, fun hpriv hrange => ?exit⟩
  case enter => exact exec_sysenter_of_unsettled hpart hpe hzero' (selectorSettled_eq_false (by omega))
  case above =>
    refine exec_sysenter_of_above32 hpart hpe (selectorSettled_iff.mpr ⟨hlow, by omega⟩) ?_
    simpa [above32] using habove
  case exit => exact exec_sysexit_of_unsettled hpart hpe hzero' hpriv (selectorSettled_eq_false (by omega))

/-! ## What the two instructions leave alone -/

/-- Settles O11: `sysenterNext` changes ESP alone of the registers and VM and IF alone of the flags. -/
theorem sysenterFrame : Obligations.SysenterFrame := by
  unfold Obligations.SysenterFrame
  intro s t h
  obtain ⟨-, -, -, -, -, -, rfl⟩ := execSysenter_next_iff.mp h
  have hregs (r : GReg) (hr : r ≠ .esp) : (sysenterNext s).regs.get r = s.regs.get r := get_setEsp _ _ hr
  have hflags (n : Nat) (h9 : n ≠ 9) (h17 : n ≠ 17) : (sysenterNext s).eflags.getLsbD n = s.eflags.getLsbD n := by
    rw [sysenterNext_eflags, getLsbD_clearVmIf, if_neg (by omega)]
  exact ⟨hregs, hflags, by simp⟩

/-- `s` with the memory, the data segments and the floating-point state of `d`. -/
def withDataOf (d s : State) : State :=
  { s with
    mem := d.mem, ds := d.ds, es := d.es, fs := d.fs, gs := d.gs, fcw := d.fcw, fsw := d.fsw, ftw := d.ftw, fop := d.fop
    fipOff := d.fipOff, fipSel := d.fipSel, fdpOff := d.fdpOff, fdpSel := d.fdpSel, fr := d.fr }

/-- The outcome with its next state, if any, changed. -/
def mapNext (g : State → State) : Host.Outcome State Fault Refusal → Host.Outcome State Fault Refusal
  | .next t => .next (g t)
  | .fault f => .fault f
  | .refused r => .refused r

/-- No test of SYSENTER reads such data, and its update does not write them. -/
theorem execSysenter_withDataOf (d s : State) : execSysenter (withDataOf d s) = mapNext (withDataOf d) (execSysenter s) := by
  simp only [execSysenter, apply_ite (mapNext (withDataOf d))]
  rfl

/-- No test of SYSEXIT reads such data, and its update does not write them. -/
theorem execSysexit_withDataOf (d s : State) : execSysexit (withDataOf d s) = mapNext (withDataOf d) (execSysexit s) := by
  simp only [execSysexit, apply_ite (mapNext (withDataOf d))]
  rfl

/-- Settles O22: the varied state is `withDataOf` itself. -/
theorem fastCallsIgnoreMemoryAndFpState : Obligations.FastCallsIgnoreMemoryAndFpState := by
  unfold Obligations.FastCallsIgnoreMemoryAndFpState
  intro i s m ds es fs gs fcw fsw ftw fop fipOff fipSel fdpOff fdpSel fr hi
  have hdata (d : State) : exec i (withDataOf d s) = mapNext (withDataOf d) (exec i s) := by
    rcases hi with rfl | rfl
    · exact execSysenter_withDataOf d s
    · exact execSysexit_withDataOf d s
  exact hdata { s with
    mem := m, ds := ds, es := es, fs := fs, gs := gs, fcw := fcw, fsw := fsw, ftw := ftw, fop := fop
    fipOff := fipOff, fipSel := fipSel, fdpOff := fdpOff, fdpSel := fdpSel, fr := fr }

/-! ## Selectors -/

/-- The selectors SYSENTER loads, as numbers (rules R133, R134). -/
theorem toNat_kernelSelectors (h : selectorSettled s.sysenterCs 8 = true) :
    (kernelCodeSelector s).toNat = s.sysenterCs.toNat / 4 * 4 ∧
      (kernelStackSelector s).toNat = s.sysenterCs.toNat / 4 * 4 + 8 := by
  obtain ⟨-, hsum⟩ := selectorSettled_iff.mp h
  have hcode : (kernelCodeSelector s).toNat = s.sysenterCs.toNat / 4 * 4 := by
    rw [kernelCodeSelector, toNat_withRpl, BitVec.toNat_setWidth, Nat.mod_eq_of_lt (by omega)]
    rfl
  refine ⟨hcode, ?_⟩
  rw [kernelStackSelector_eq, BitVec.toNat_add_of_lt (by rw [hcode]; simp; omega), hcode]
  rfl

/-- The selectors SYSEXIT loads, as numbers (rules R142, R143). -/
theorem toNat_userSelectors (h : selectorSettled s.sysenterCs 24 = true) :
    (userCodeSelector s).toNat = s.sysenterCs.toNat / 4 * 4 + 16 + 3 ∧
      (userStackSelector s).toNat = s.sysenterCs.toNat / 4 * 4 + 24 + 3 := by
  obtain ⟨-, hsum⟩ := selectorSettled_iff.mp h
  have hlow : (s.sysenterCs.setWidth 16).toNat = s.sysenterCs.toNat := by
    rw [BitVec.toNat_setWidth, Nat.mod_eq_of_lt (by omega)]
  have hcode : (s.sysenterCs.setWidth 16 + 16).toNat = s.sysenterCs.toNat + 16 := by
    bv_omega
  have hstack : (s.sysenterCs.setWidth 16 + 24).toNat = s.sysenterCs.toNat + 24 := by
    bv_omega
  rw [userCodeSelector, userStackSelector, toNat_withRpl, toNat_withRpl, hcode, hstack,
    show (3 : BitVec 2).toNat = 3 from rfl]
  omega

/-- Settles O19: the four selectors as numbers, none of them wrapped. -/
theorem selectorBlock : Obligations.SelectorBlock := by
  unfold Obligations.SelectorBlock
  intro s t u v henter hexit hmsr
  obtain ⟨-, -, -, hsettled, -, -, rfl⟩ := execSysenter_next_iff.mp henter
  obtain ⟨-, -, -, -, hsettled', rfl⟩ := execSysexit_next_iff.mp hexit
  obtain ⟨hcode, hstack⟩ := toNat_kernelSelectors hsettled
  obtain ⟨hcode', hstack'⟩ := toNat_userSelectors hsettled'
  rw [hmsr] at hcode' hstack'
  simp only [sysenterNext_cs, sysenterNext_ss, sysexitNext_cs, sysexitNext_ss, flatCode, flatStack]
  omega

/-! ## Both instructions -/

/-- Settles O20: SYSENTER's next state is in protected mode at CPL 0, so SYSEXIT completes from it. -/
theorem fastCallsAreNoCallReturnPair : Obligations.FastCallsAreNoCallReturnPair := by
  unfold Obligations.FastCallsAreNoCallReturnPair
  intro s hpart hpe hlow hhigh hesp heip
  have hregs (r : GReg) (hr : r ≠ .esp) : (sysexitNext (sysenterNext s)).regs.get r = s.regs.get r :=
    (get_setEsp _ _ hr).trans (get_setEsp _ _ hr)
  exact ⟨sysenterNext s, sysexitNext (sysenterNext s), exec_sysenter_of_settled hpart hpe hlow (by omega) hesp heip,
    exec_sysexit_of_settled hpart (sysenterNext_mode hpe) rfl hlow hhigh, rfl, rfl, rfl, hregs,
    sysenterNext_flagIF s, sysenterNext_flagVM s, rfl⟩

/-- Protected mode with CS and SS as SYSENTER and SYSEXIT load them: 32-bit code, and every operand that does not wrap is
inside both segments (rules R69, R70, R84, R102). -/
theorem flat_of_loaded {csSel ssSel : Half} {dpl dpl' : BitVec 2} (hmode : t.mode = .protectedMode)
    (hcs : t.cs = flatCode csSel dpl) (hss : t.ss = flatStack ssSel dpl') :
    t.defaultAddrSize = .a32 ∧ t.mode32 = true ∧ ∀ (off : Word) (write : Bool), off.toNat ≤ 0xFFFFFE00 →
      outsideSegment t .cs off write = false ∧ outsideSegment t .ss off write = false := by
  have hd : t.cs.d = true := by rw [hcs]; rfl
  obtain ⟨hpe, hvm⟩ := mode_eq_protectedMode.mp hmode
  refine ⟨if_pos ⟨hmode, hd⟩, by simp [State.mode32, hpe, hvm, hd], fun off write hoff => ⟨?_, ?_⟩⟩
  · exact outsideSegment_eq_false.mpr fun _ => ⟨hoff, segCheck_of_flat (by rw [State.seg, hcs]; rfl) _ _ _ _⟩
  · exact outsideSegment_eq_false.mpr fun _ => ⟨hoff, segCheck_of_flat (by rw [State.seg, hss]; rfl) _ _ _ _⟩

/-- Settles O45: SYSENTER ends in protected mode with the two flat segments. -/
theorem kernelSegmentsAreFlat : Obligations.KernelSegmentsAreFlat := by
  unfold Obligations.KernelSegmentsAreFlat
  intro s t h
  obtain ⟨-, hpe, -, -, -, -, rfl⟩ := execSysenter_next_iff.mp h
  exact flat_of_loaded (sysenterNext_mode hpe) (sysenterNext_cs s) (sysenterNext_ss s)

/-- SYSEXIT completes at privilege level 0 only, so in protected mode, and leaves the mode (rules R140, R148). -/
theorem sysexitNext_mode (hpe : s.crPE = true) (hpriv : s.privilege = 0#2) :
    (sysexitNext s).mode = .protectedMode :=
  mode_eq_protectedMode.mpr ⟨hpe, (flagVM_congr (sysexitNext_eflags s)).trans (flagVM_of_privilege_zero hpe hpriv)⟩

/-- Settles O60: SYSEXIT stays in protected mode and loads the two flat segments. -/
theorem userSegmentsAreFlat : Obligations.UserSegmentsAreFlat := by
  unfold Obligations.UserSegmentsAreFlat
  intro s t h
  obtain ⟨-, -, hpe, hpriv, -, rfl⟩ := execSysexit_next_iff.mp h
  have hmode := sysexitNext_mode hpe hpriv
  exact ⟨hmode, flat_of_loaded hmode (sysexitNext_cs s) (sysexitNext_ss s)⟩

end Sys2Proof.FastCallProofs

/-! PROOFS. `20_memory.md`, `10_state.md` section 6 and `40_fp_state_save_restore.md` section 3: the situations in which
FXSAVE and FXRSTOR are refused, the addresses of the operand, and the tags. -/

namespace Sys2Proof.ImageProofs

open Sys2Proof.Machine Sys2Proof.Laws Sys2Proof.ExceptionProofs

variable {s t : State} {pre pre' : List Prefix} {op op' : MemOp} {w : Bool} {m : Memory} {addr addr' : Nat → Nat} {pc : Word}
  {r : Refusal}

/-! ## Refusals -/

theorem exec_fxInstr_of_fxStop_refuse (h : fxStop pre op w s = some (.refuse r)) :
    exec (fxInstr w pre op) s = .refused r := by
  cases w with
  | true =>
    change execFxsave pre op s = _
    rw [execFxsave, h]
    rfl
  | false =>
    change execFxrstor pre op s = _
    rw [execFxrstor, h]
    rfl

theorem fxStop_of_reservedPrefix (h : hasReservedPrefix pre = true) : fxStop pre op w s = some (.refuse .reservedPrefix) :=
  if_pos h

theorem fxStop_of_absent (hres : hasReservedPrefix pre = false) (h : s.params.hasFxsr = false) :
    fxStop pre op w s = some (.refuse .fxsrAbsent) := by
  simp [fxStop, hres, h]

theorem fxStop_of_base_unaligned (hres : hasReservedPrefix pre = false) (hpart : s.params.hasFxsr = true)
    (h : (s.seg (operandSegment s pre op)).base.toNat % 16 ≠ 0) :
    fxStop pre op w s = some (.refuse .segmentBaseUnaligned) := by
  simp [fxStop, hres, hpart, h]

theorem nextPc_eq_none {n : Nat} (h : 2 ^ 32 ≤ s.eip.toNat + n) : nextPc s n = none :=
  if_neg (Nat.not_lt.mpr h)

theorem execFxsave_of_pcPastTop (h : OperandAccessible s pre op true)
    (hpc : 2 ^ 32 ≤ s.eip.toNat + (Instr.fxsave pre op).length) : execFxsave pre op s = .refused .pcPastTop := by
  rw [execFxsave, fxStop_eq_none_iff.mpr h, nextPc_eq_none hpc]

theorem execFxrstor_of_pcPastTop (h : OperandAccessible s pre op false)
    (h5 : s.mem.byte (operandAddress s pre op false 5) = 0#8)
    (hpc : 2 ^ 32 ≤ s.eip.toNat + (Instr.fxrstor pre op).length) : execFxrstor pre op s = .refused .pcPastTop := by
  rw [operandAddress] at h5
  rw [execFxrstor, fxStop_eq_none_iff.mpr h, nextPc_eq_none hpc]
  exact if_pos h5

/-- What FXRSTOR does to an image whose byte 5 is not 0: nothing, it is refused (rule R106). -/
theorem execFxrstor_of_upperTagByte (h : OperandAccessible s pre op false)
    (h5 : s.mem.byte (operandAddress s pre op false 5) ≠ 0#8) :
    execFxrstor pre op s = .refused .tagWordUpperByteNonzero := by
  rw [execFxrstor, fxStop_eq_none_iff.mpr h]
  exact if_neg h5

/-- FXRSTOR refuses the upper tag byte of no image whose byte 5 is 0. -/
theorem execFxrstor_ne_upperTagByte (h5 : s.mem.byte (operandAddress s pre op false 5) = 0#8) :
    execFxrstor pre op s ≠ .refused .tagWordUpperByteNonzero := by
  rw [operandAddress] at h5
  intro h
  unfold execFxrstor at h
  split at h
  · next stop hstop =>
    cases stop with
    | fault f => nomatch h
    | refuse r =>
      cases h
      obtain ⟨-, ⟨⟩⟩ | ⟨-, ⟨⟩⟩ | ⟨-, ⟨⟩⟩ := fxStop_refuse hstop
  · rw [if_pos h5] at h
    split at h <;> nomatch h

/-- Settles O24: the presence of each facility is tested before its exceptions. -/
theorem absentInstructionsRefused : Obligations.AbsentInstructionsRefused := by
  unfold Obligations.AbsentInstructionsRefused
  refine ⟨fun s h => ⟨if_pos (by simp [h]), if_pos (by simp [h])⟩, fun s pre op hpart hres => ?_⟩
  have hrefused (w : Bool) : exec (fxInstr w pre op) s = .refused .fxsrAbsent :=
    exec_fxInstr_of_fxStop_refuse (fxStop_of_absent hres hpart)
  exact ⟨hrefused true, hrefused false⟩

/-- Settles O25: the two refusals before the exceptions, and the one after them. -/
theorem unsettledOperandFormsRefused : Obligations.UnsettledOperandFormsRefused := by
  unfold Obligations.UnsettledOperandFormsRefused
  intro s pre op
  refine ⟨fun hmem => ?reserved, fun hrep hrepne hsize hpart hbase => ?base, execFxsave_of_pcPastTop,
    execFxrstor_of_pcPastTop⟩
  case reserved =>
    have hres : hasReservedPrefix pre = true := by
      simpa [hasReservedPrefix, or_assoc] using hmem
    have hrefused (w : Bool) : exec (fxInstr w pre op) s = .refused .reservedPrefix :=
      exec_fxInstr_of_fxStop_refuse (fxStop_of_reservedPrefix hres)
    exact ⟨hrefused true, hrefused false⟩
  case base =>
    have hres : hasReservedPrefix pre = false := hasReservedPrefix_eq_false.mpr ⟨hrep, hrepne, hsize⟩
    have hrefused (w : Bool) : exec (fxInstr w pre op) s = .refused .segmentBaseUnaligned :=
      exec_fxInstr_of_fxStop_refuse (fxStop_of_base_unaligned hres hpart hbase)
    exact ⟨hrefused true, hrefused false⟩

/-- Settles O31: byte 5 is tested before anything is loaded. -/
theorem fxrstorRefusesUpperTagByte : Obligations.FxrstorRefusesUpperTagByte := by
  unfold Obligations.FxrstorRefusesUpperTagByte
  intro s pre op
  exact execFxrstor_of_upperTagByte

/-! ## The addresses of the operand -/

theorem toNat_linearAddress (r : SegReg) (off : Word) (i : Nat) :
    (linearAddress r off i).toNat = (r.base.toNat + off.toNat + i) % 2 ^ 32 := by
  simp [linearAddress]

/-- Settles O44: each linear address is its own physical address. -/
theorem unpagedOperandIsContiguous : Obligations.UnpagedOperandIsContiguous := by
  unfold Obligations.UnpagedOperandIsContiguous
  intro s pre op w hunpaged
  have haddr (i : Nat) : operandAddress s pre op w i =
      ((s.seg (operandSegment s pre op)).base.toNat + (operandOffset s op).toNat + i) % 2 ^ 32 := by
    rw [operandAddress, physicalAddress, translateLinear_of_unpaged hunpaged]
    exact toNat_linearAddress ..
  refine ⟨haddr, fun i hi j hj heq => ?_⟩
  rw [haddr, haddr] at heq
  omega

/-- The operand's addresses depend on the encoding through segment and offset only. -/
theorem operandAddress_congr (hseg : operandSegment s pre op = operandSegment s pre' op')
    (hoff : operandOffset s op = operandOffset s op') (w : Bool) :
    operandAddress s pre op w = operandAddress s pre' op' w := by
  funext i
  rw [operandAddress, operandAddress, hseg, hoff]

/-- Settles O35: the next states are `fxsaveNext` and `fxrstorNext` at the same addresses, whatever `pc` they end at. -/
theorem addressSizeKeepsFormat : Obligations.AddressSizeKeepsFormat := by
  unfold Obligations.AddressSizeKeepsFormat
  intro s t t' pre pre' op op' hseg hoff
  refine ⟨fun h h' => ?fxsave, fun h h' => ?fxrstor⟩
  case fxsave =>
    obtain ⟨-, -, rfl⟩ := execFxsave_next h
    obtain ⟨-, -, rfl⟩ := execFxsave_next h'
    rw [operandAddress_congr hseg hoff]
    rfl
  case fxrstor =>
    obtain ⟨-, -, -, rfl⟩ := execFxrstor_next h
    obtain ⟨-, -, -, rfl⟩ := execFxrstor_next h'
    rw [operandAddress_congr hseg hoff]
    rfl

/-! ## Tags and the register stack -/

/-- Settles O47: exponent, J-bit and fraction are bits 78 to 0. -/
theorem tagIgnoresSign : Obligations.TagIgnoresSign := by
  unfold Obligations.TagIgnoresSign
  intro v w h
  have hbit (i : Nat) (hi : i < 79) : v.getLsbD i = w.getLsbD i := by
    simpa [hi] using congrArg (·.getLsbD i) h
  have hexp : exponentOf v = exponentOf w := BitVec.eq_of_getLsbD_eq fun i hi => by
    simp [exponentOf, hi, hbit (64 + i) (by omega)]
  have hfrac : fractionOf v = fractionOf w := BitVec.eq_of_getLsbD_eq fun i hi => by
    simp [fractionOf, hi, hbit i (by omega)]
  have hj : jBit v = jBit w := hbit 63 (by decide)
  rw [tagOf, tagOf, hexp, hfrac, hj]

/-- Settles O49: `TOS + i` modulo 8. -/
theorem stackOverRegisters : Obligations.StackOverRegisters := by
  unfold Obligations.StackOverRegisters
  intro s h
  simp only [State.st, h]
  exact ⟨rfl, rfl, rfl, rfl, rfl, rfl, rfl, rfl⟩

/-- The bits of the abridged tag byte (rule R112); `change` writes its width as the sum of those of its eight parts. -/
theorem getLsbD_abridgedTag (ftw : Half) {j : Nat} (h : j < 8) :
    (abridgedTag ftw).getLsbD j = (tagAt ftw j != tagEmpty) := by
  change BitVec.getLsbD (w := 1 + 1 + 1 + 1 + 1 + 1 + 1 + 1) (_ ++ _) j = _
  simp only [BitVec.getLsbD_append]
  interval_cases j <;> simp [validBit]

/-- Settles O48. -/
theorem validBits : Obligations.ValidBits := by
  unfold Obligations.ValidBits
  refine ⟨fun ftw j h => ?bit, by decide⟩
  case bit =>
    rw [getLsbD_abridgedTag ftw h]
    exact bne_eq_false_iff_eq

/-- Two bits at the low end of a word of tags, and those above them. -/
theorem extractLsb'_append_low {n : Nat} (hi : BitVec n) (lo : BitVec 2) : (hi ++ lo).extractLsb' 0 2 = lo :=
  BitVec.extractLsb'_append_eq_right

theorem extractLsb'_append_above {n : Nat} (hi : BitVec n) (lo : BitVec 2) (k : Nat) :
    (hi ++ lo).extractLsb' (k + 2) 2 = hi.extractLsb' k 2 :=
  BitVec.extractLsb'_append_eq_of_le (by omega)

theorem bitVec3_cases : ∀ j : BitVec 3, j = 0 ∨ j = 1 ∨ j = 2 ∨ j = 3 ∨ j = 4 ∨ j = 5 ∨ j = 6 ∨ j = 7 := by
  decide

/-- The tags of a rebuilt tag word (rule R105). -/
theorem tagAt_rebuiltFtw (valid : Byte) (fr : FpRegs) (j : BitVec 3) :
    tagAt (rebuiltFtw valid fr) j.toNat = restoredTag (valid.getLsbD j.toNat) (fr.get j) := by
  change BitVec.extractLsb' (n := 2 + 2 + 2 + 2 + 2 + 2 + 2 + 2) _ _ (_ ++ _) = _
  rcases bitVec3_cases j with rfl | rfl | rfl | rfl | rfl | rfl | rfl | rfl <;>
    simp [extractLsb'_append_above, extractLsb'_append_low, FpRegs.get]

end Sys2Proof.ImageProofs

/-! PROOFS. `40_fp_state_save_restore.md`: the image FXSAVE writes, what FXRSTOR loads from it, and the two together. -/

namespace Sys2Proof.SaveRestoreProofs

open Sys2Proof.Machine Sys2Proof.Laws Sys2Proof.ImageProofs

variable {s t : State} {pre : List Prefix} {op : MemOp} {m : Memory} {addr : Nat → Nat} {pc : Word}

/-! ## The bytes of the image -/

section
variable (s : State) (addr : Nat → Nat) {k : Nat}

theorem offsetByte_of_mode32 (off : Word) (k n : Nat) : offsetByte true off k n = .byte (byteOf off k) := rfl

theorem offsetByte_of_low {mode32 : Bool} {off : Word} {n : Nat} (h : k < 2) :
    offsetByte mode32 off k n = .byte (byteOf off k) := by
  simp [offsetByte, h]

theorem fxsaveByte_fcw (h : k < 2) : fxsaveByte s addr (0 + k) = .byte (byteOf s.fcw k) := by
  rw [Nat.zero_add]
  exact if_pos h

theorem fxsaveByte_fsw (h : k < 2) : fxsaveByte s addr (2 + k) = .byte (byteOf s.fsw k) := by
  simp (disch := omega) only [fxsaveByte, if_pos, if_neg, Nat.add_sub_cancel_left]

theorem fxsaveByte_tags : fxsaveByte s addr 4 = .byte (abridgedTag s.ftw) := rfl

theorem fxsaveByte_reserved5 : fxsaveByte s addr 5 = .byte 0#8 := rfl

theorem fxsaveByte_fop_low : fxsaveByte s addr 6 = .byte (byteOf s.fop 0) := rfl

theorem fxsaveByte_fop_high : fxsaveByte s addr 7 = .opened (.masked (s.draws + 7) 0x07 (byteOf s.fop 1)) := rfl

theorem fxsaveByte_fipOff (h : k < 4) :
    fxsaveByte s addr (8 + k) = offsetByte s.mode32 s.fipOff k (s.draws + (8 + k)) := by
  simp (disch := omega) only [fxsaveByte, if_pos, if_neg, Nat.add_sub_cancel_left]

theorem fxsaveByte_fipSel (h : k < 2) : fxsaveByte s addr (12 + k) = .byte (byteOf s.fipSel k) := by
  simp (disch := omega) only [fxsaveByte, if_pos, if_neg, Nat.add_sub_cancel_left]

theorem fxsaveByte_fdpOff (hprev : s.fpPrevNoMem = false) (h : k < 4) :
    fxsaveByte s addr (16 + k) = offsetByte s.mode32 s.fdpOff k (s.draws + (16 + k)) := by
  simp (disch := omega) only [fxsaveByte, if_pos, if_neg, Nat.add_sub_cancel_left, hprev, Bool.false_eq_true, if_false]

theorem fxsaveByte_fdpSel (hprev : s.fpPrevNoMem = false) (h : k < 2) :
    fxsaveByte s addr (20 + k) = .byte (byteOf s.fdpSel k) := by
  simp (disch := omega) only [fxsaveByte, if_pos, if_neg, Nat.add_sub_cancel_left, hprev, Bool.false_eq_true, if_false]

/-- DS after an FP instruction without memory operand: the two bytes share one draw (rule R113). -/
theorem fxsaveByte_fdpSel_either (hprev : s.fpPrevNoMem = true) (h : k < 2) : fxsaveByte s addr (20 + k) =
    .opened (.either (s.draws + 20) (byteOf s.fdpSel k) (s.mem.byte (addr (20 + k)))) := by
  simp (disch := omega) only [fxsaveByte, if_pos, if_neg, Nat.add_sub_cancel_left, hprev, if_true]

theorem fxsaveByte_register (i : BitVec 3) (h : k < 10) :
    fxsaveByte s addr (32 + 16 * i.toNat + k) = .byte (byteOf (s.st i) k) := by
  have hi := i.isLt
  have hrow : (16 * i.toNat + k) / 16 = i.toNat := by omega
  have hcol : (16 * i.toNat + k) % 16 = k := by omega
  simp (disch := omega) only [fxsaveByte, registerRowByte, if_pos, if_neg, Nat.add_assoc, Nat.add_sub_cancel_left, hrow,
    hcol, BitVec.ofNat_toNat, BitVec.setWidth_eq]

end

/-! ## Memory after FXSAVE -/

section
variable (hwf : s.mem.wf = true) (hun : ∀ i < 512, ∀ j < 512, addr i = addr j → i = j)
include hwf hun

/-- In canonical memory and at different addresses each byte of the operand holds the image's. -/
theorem fxsaveNext_byte {b : Nat} (hb : b < 512) :
    (fxsaveNext s addr pc).mem.byte (addr b) = storedValue (s.mem.byte (addr b)) (fxsaveByte s addr b) := by
  rw [fxsaveNext_mem, operandSize_eq]
  exact byte_storeFirst_self hwf _ _ _ hun b hb

/-- A field of the image whose bytes are those of a value. -/
theorem fxsaveNext_field {w : Nat} (v : BitVec w) (lo n : Nat) (hlo : lo + n ≤ 512)
    (h : ∀ k < n, fxsaveByte s addr (lo + k) = .byte (byteOf v k)) :
    (fxsaveNext s addr pc).mem.field addr lo n = v.toNat % 256 ^ n :=
  field_of_bytes v _ _ _ _ fun k hk => by
    rw [fxsaveNext_byte hwf hun (by omega), h k hk]
    rfl

/-- The same for a value no wider than the field. -/
theorem fxsaveNext_field_whole {w : Nat} (v : BitVec w) (lo n : Nat) (hw : 2 ^ w ≤ 256 ^ n) (hlo : lo + n ≤ 512)
    (h : ∀ k < n, fxsaveByte s addr (lo + k) = .byte (byteOf v k)) :
    (fxsaveNext s addr pc).mem.field addr lo n = v.toNat := by
  rw [fxsaveNext_field hwf hun v lo n hlo h, Nat.mod_eq_of_lt (Nat.lt_of_lt_of_le v.isLt hw)]

theorem saved_fcw : (fxsaveNext s addr pc).mem.field addr 0 2 = s.fcw.toNat :=
  fxsaveNext_field_whole hwf hun _ _ _ (by decide) (by decide) fun _ => fxsaveByte_fcw s addr

theorem saved_fsw : (fxsaveNext s addr pc).mem.field addr 2 2 = s.fsw.toNat :=
  fxsaveNext_field_whole hwf hun _ _ _ (by decide) (by decide) fun _ => fxsaveByte_fsw s addr

theorem saved_tags : (fxsaveNext s addr pc).mem.byte (addr 4) = abridgedTag s.ftw := by
  rw [fxsaveNext_byte hwf hun (by decide), fxsaveByte_tags]
  rfl

theorem saved_reserved5 : (fxsaveNext s addr pc).mem.byte (addr 5) = 0#8 := by
  rw [fxsaveNext_byte hwf hun (by decide), fxsaveByte_reserved5]
  rfl

theorem saved_fop_low : (fxsaveNext s addr pc).mem.byte (addr 6) = byteOf s.fop 0 := by
  rw [fxsaveNext_byte hwf hun (by decide), fxsaveByte_fop_low]
  rfl

/-- Bits 10:8 of FOP stand under five free bits (rule R116). -/
theorem saved_fop_high : (fxsaveNext s addr pc).mem.byte (addr 7) &&& 0x07 = byteOf s.fop 1 &&& 0x07 := by
  rw [fxsaveNext_byte hwf hun (by decide), fxsaveByte_fop_high, storedValue, OpenByte.value]
  have hfree : ~~~(0x07 : Byte) &&& 0x07 = 0#8 := by decide
  rw [BitVec.and_or_distrib_right, BitVec.and_assoc, BitVec.and_assoc, hfree, BitVec.and_self,
    BitVec.and_zero, BitVec.zero_or]

theorem saved_fipSel : (fxsaveNext s addr pc).mem.field addr 12 2 = s.fipSel.toNat :=
  fxsaveNext_field_whole hwf hun _ _ _ (by decide) (by decide) fun _ => fxsaveByte_fipSel s addr

/-- The low half of an offset is written in every mode (rule R102). -/
theorem saved_fipOff_low : (fxsaveNext s addr pc).mem.field addr 8 2 = s.fipOff.toNat % 65536 :=
  fxsaveNext_field hwf hun s.fipOff 8 2 (by decide) fun k hk => by
    rw [fxsaveByte_fipOff s addr (by omega), offsetByte_of_low hk]

theorem saved_fipOff (h32 : s.mode32 = true) : (fxsaveNext s addr pc).mem.field addr 8 4 = s.fipOff.toNat :=
  fxsaveNext_field_whole hwf hun s.fipOff 8 4 (by decide) (by decide) fun k hk => by
    rw [fxsaveByte_fipOff s addr hk, h32, offsetByte_of_mode32]

theorem saved_fdpOff_low (hprev : s.fpPrevNoMem = false) :
    (fxsaveNext s addr pc).mem.field addr 16 2 = s.fdpOff.toNat % 65536 :=
  fxsaveNext_field hwf hun s.fdpOff 16 2 (by decide) fun k hk => by
    rw [fxsaveByte_fdpOff s addr hprev (by omega), offsetByte_of_low hk]

theorem saved_fdpOff (hprev : s.fpPrevNoMem = false) (h32 : s.mode32 = true) :
    (fxsaveNext s addr pc).mem.field addr 16 4 = s.fdpOff.toNat :=
  fxsaveNext_field_whole hwf hun s.fdpOff 16 4 (by decide) (by decide) fun k hk => by
    rw [fxsaveByte_fdpOff s addr hprev hk, h32, offsetByte_of_mode32]

theorem saved_fdpSel (hprev : s.fpPrevNoMem = false) : (fxsaveNext s addr pc).mem.field addr 20 2 = s.fdpSel.toNat :=
  fxsaveNext_field_whole hwf hun _ _ _ (by decide) (by decide) fun _ => fxsaveByte_fdpSel s addr hprev

/-- DP keeps its old bytes after an FP instruction without memory operand (rule R113). -/
theorem kept_fdpOff (hprev : s.fpPrevNoMem = true) {n : Nat} (hn : n ≤ 4) :
    (fxsaveNext s addr pc).mem.field addr 16 n = s.mem.field addr 16 n :=
  field_congr _ _ _ _ _ _ fun k hk => by
    rw [fxsaveNext_byte hwf hun (by omega), fxsaveByte_eq_kept.mpr ⟨hprev, by omega, by omega⟩]
    rfl

/-- DS is then written or kept, as a whole (rule R113, decision D15). -/
theorem saved_or_kept_fdpSel (hprev : s.fpPrevNoMem = true) :
    (fxsaveNext s addr pc).mem.field addr 20 2 = s.fdpSel.toNat ∨
      (fxsaveNext s addr pc).mem.field addr 20 2 = s.mem.field addr 20 2 := by
  have hbyte (k : Nat) (hk : k < 2) : (fxsaveNext s addr pc).mem.byte (addr (20 + k)) =
      if Config.dsFieldKept (s.draws + 20) then s.mem.byte (addr (20 + k)) else byteOf s.fdpSel k := by
    rw [fxsaveNext_byte hwf hun (by omega), fxsaveByte_fdpSel_either s addr hprev hk]
    rfl
  cases hkept : Config.dsFieldKept (s.draws + 20) with
  | false =>
    left
    rw [field_of_bytes s.fdpSel _ _ _ _ fun k hk => by rw [hbyte k hk, hkept, if_neg Bool.false_ne_true]]
    exact Nat.mod_eq_of_lt s.fdpSel.isLt
  | true => exact .inr (field_congr _ _ _ _ _ _ fun k hk => by rw [hbyte k hk, hkept, if_pos rfl])

theorem saved_register (i : BitVec 3) : (fxsaveNext s addr pc).mem.field addr (32 + 16 * i.toNat) 10 = (s.st i).toNat :=
  fxsaveNext_field_whole hwf hun _ _ _ (by decide) (by omega) fun _ => fxsaveByte_register s addr i

end

/-! ## FOP in the image -/

theorem toNat_and_seven (b : Byte) : (b &&& 0x07).toNat = b.toNat % 8 := by
  rw [BitVec.toNat_and]
  exact Nat.and_two_pow_sub_one_eq_mod _ 3

theorem field_two (m : Memory) (addr : Nat → Nat) (lo : Nat) :
    m.field addr lo 2 = (m.byte (addr lo)).toNat + 256 * (m.byte (addr (lo + 1))).toNat := by
  simp [Memory.field]

/-- The low 11 bits of FOP's two bytes depend on the low 3 bits of the second alone. -/
theorem field_fop_mod (m : Memory) (addr : Nat → Nat) : m.field addr 6 2 % 2048 =
    (m.byte (addr 6)).toNat + 256 * (m.byte (addr 7) &&& 0x07).toNat := by
  have hlow := (m.byte (addr 6)).isLt
  simp only [field_two, Nat.reduceAdd, toNat_and_seven]
  omega

theorem saved_fop (hwf : s.mem.wf = true) (hun : ∀ i < 512, ∀ j < 512, addr i = addr j → i = j) :
    (fxsaveNext s addr pc).mem.field addr 6 2 % 2048 = s.fop.toNat := by
  have hfop := s.fop.isLt
  rw [field_fop_mod, saved_fop_low hwf hun, saved_fop_high hwf hun, toNat_and_seven, byteOf_toNat, byteOf_toNat]
  omega

/-! ## FXSAVE -/

theorem toNat_pc_add {n : Nat} (h : s.eip.toNat + n < 2 ^ 32) : (s.eip + BitVec.ofNat 32 n).toNat = s.eip.toNat + n := by
  rw [BitVec.toNat_add, BitVec.toNat_ofNat, Nat.add_mod_mod, Nat.mod_eq_of_lt h]

/-- Settles O26, field by field. -/
theorem fxsaveWritesImage : Obligations.FxsaveWritesImage := by
  unfold Obligations.FxsaveWritesImage
  intro s pre op haccess hpc
  refine ⟨_, execFxsave_of_accessible haccess hpc, toNat_pc_add hpc, fun hwf hun => ?_⟩
  exact ⟨saved_fcw hwf hun, saved_fsw hwf hun, saved_tags hwf hun, saved_reserved5 hwf hun, saved_fop hwf hun,
    saved_fipOff_low hwf hun, saved_fipOff hwf hun, saved_fipSel hwf hun,
    fun hprev => ⟨saved_fdpOff_low hwf hun hprev, saved_fdpOff hwf hun hprev, saved_fdpSel hwf hun hprev⟩,
    fun hprev => ⟨kept_fdpOff hwf hun hprev (by decide), saved_or_kept_fdpSel hwf hun hprev⟩, saved_register hwf hun⟩

/-- Settles O28: every address is noted but those of bytes kept. -/
theorem fxsaveClosesWrittenBytes : Obligations.FxsaveClosesWrittenBytes := by
  unfold Obligations.FxsaveClosesWrittenBytes
  intro s t pre op a h
  obtain ⟨-, -, rfl⟩ := execFxsave_next h
  rw [fxsaveNext_savedBytes, operandSize_eq, mem_noteSaved]
  simp only [ne_eq, fxsaveByte_eq_kept]

/-! ## FXRSTOR -/

theorem toNat_ofNat_field {w : Nat} (m : Memory) (addr : Nat → Nat) (lo n : Nat) (hw : 256 ^ n ≤ 2 ^ w) :
    (BitVec.ofNat w (m.field addr lo n)).toNat = m.field addr lo n := by
  rw [BitVec.toNat_ofNat, Nat.mod_eq_of_lt (Nat.lt_of_lt_of_le (field_lt ..) hw)]

theorem field_four_mod (m : Memory) (addr : Nat → Nat) (lo : Nat) : m.field addr lo 4 % 65536 = m.field addr lo 2 := by
  have h0 := (m.byte (addr lo)).isLt
  have h1 := (m.byte (addr (lo + 1))).isLt
  simp only [Memory.field]
  omega

section
variable (s : State) (addr : Nat → Nat) (pc : Word)

theorem loaded_fcw : (fxrstorNext s addr pc).fcw.toNat = s.mem.field addr 0 2 :=
  toNat_ofNat_field _ _ _ _ (by decide)

theorem loaded_fsw : (fxrstorNext s addr pc).fsw.toNat = s.mem.field addr 2 2 :=
  toNat_ofNat_field _ _ _ _ (by decide)

theorem loaded_fipSel : (fxrstorNext s addr pc).fipSel.toNat = s.mem.field addr 12 2 :=
  toNat_ofNat_field _ _ _ _ (by decide)

theorem loaded_fdpSel : (fxrstorNext s addr pc).fdpSel.toNat = s.mem.field addr 20 2 :=
  toNat_ofNat_field _ _ _ _ (by decide)

theorem loaded_fop : (fxrstorNext s addr pc).fop.toNat = s.mem.field addr 6 2 % 2048 := by
  rw [fxrstorNext_fop, imageFop, peek_eq, ← field_fop_mod, BitVec.toNat_ofNat, Nat.mod_mod]

/-- An offset field in 32-bit mode. -/
theorem toNat_imageOffset (lo n : Nat) (h32 : s.mode32 = true) :
    (imageOffset s addr lo n).toNat = s.mem.field addr lo 4 := by
  rw [imageOffset, if_pos h32, toNat_ofNat_field _ _ _ _ (by decide)]

/-- An offset field in either mode: its low half is loaded. -/
theorem toNat_imageOffset_mod (lo n : Nat) : (imageOffset s addr lo n).toNat % 65536 = s.mem.field addr lo 2 := by
  cases h32 : s.mode32 with
  | true => rw [toNat_imageOffset s addr lo n h32, field_four_mod]
  | false =>
    have hlow := field_lt s.mem addr lo 2
    rw [imageOffset, if_neg (by simp [h32]), BitVec.toNat_append, toNat_ofNat_field _ _ _ _ (by decide),
      ← Nat.shiftLeft_add_eq_or_of_lt hlow, Nat.shiftLeft_eq]
    omega

/-- Slot `i` goes to ST(i) by the TOS just loaded (rule R103). -/
theorem loaded_register (i : BitVec 3) :
    ((fxrstorNext s addr pc).st i).toNat = s.mem.field addr (32 + 16 * i.toNat) 10 := by
  rw [State.st, fxrstorNext_fr, fxrstorNext_fsw, imageRegs, get_ofFn, BitVec.add_comm, BitVec.add_sub_cancel, slotValue,
    toNat_ofNat_field _ _ _ _ (by decide)]

theorem loaded_tag (j : BitVec 3) : tagAt (fxrstorNext s addr pc).ftw j.toNat =
    if (s.mem.byte (addr 4)).getLsbD j.toNat then tagOf ((fxrstorNext s addr pc).fr.get j) else tagEmpty :=
  tagAt_rebuiltFtw _ _ _

end

/-- Settles O29, field by field. -/
theorem fxrstorLoadsImage : Obligations.FxrstorLoadsImage := by
  unfold Obligations.FxrstorLoadsImage
  intro s pre op haccess h5 hpc
  exact ⟨_, execFxrstor_of_accessible haccess h5 hpc, toNat_pc_add hpc, loaded_fcw .., loaded_fsw .., loaded_fop ..,
    toNat_imageOffset_mod .., toNat_imageOffset _ _ _ _, loaded_fipSel .., toNat_imageOffset_mod ..,
    toNat_imageOffset _ _ _ _, loaded_fdpSel .., loaded_register _ _ _, loaded_tag _ _ _⟩

/-- Settles O30: `fxrstorNext` changes the FP state, EIP and the counter of free values. -/
theorem fxrstorFrame : Obligations.FxrstorFrame := by
  unfold Obligations.FxrstorFrame
  intro s t pre op h
  obtain ⟨-, -, -, rfl⟩ := execFxrstor_next h
  simp

/-! ## The pending exception -/

/-- Some flag of FSW is set whose mask in FCW is clear (rule R42). -/
theorem fpExceptionPending_iff : s.fpExceptionPending = true ↔
    ∃ k < 6, s.fsw.getLsbD k = true ∧ s.fcw.getLsbD k = false := by
  have hbit {k : Nat} (hk : k < 6) : ((s.fsw &&& ~~~s.fcw).extractLsb' 0 6).getLsbD k =
      (s.fsw.getLsbD k && !s.fcw.getLsbD k) := by
    simp [hk, show k < 16 by omega]
  rw [State.fpExceptionPending, bne_iff_ne]
  constructor
  · intro hne
    by_contra hnone
    refine hne (BitVec.eq_of_getLsbD_eq fun k hk => ?_)
    rw [hbit hk, BitVec.getLsbD_zero, Bool.eq_false_iff]
    intro hset
    simp only [Bool.and_eq_true, Bool.not_eq_true'] at hset
    exact hnone ⟨k, hk, hset⟩
  · rintro ⟨k, hk, hflag, hmask⟩ hzero
    have := hbit hk
    rw [hzero, hflag, hmask] at this
    simp at this

/-- The low byte of a 16-bit field. -/
theorem getLsbD_ofNat_field {k : Nat} (m : Memory) (addr : Nat → Nat) (lo : Nat) (hk : k < 8) :
    (BitVec.ofNat 16 (m.field addr lo 2)).getLsbD k = (m.byte (addr lo)).getLsbD k := by
  have hlow : m.field addr lo 2 % 2 ^ 8 = (m.byte (addr lo)).toNat := by
    have := (m.byte (addr lo)).isLt
    rw [field_two]
    omega
  rw [BitVec.getLsbD_ofNat, decide_eq_true (by omega), Bool.true_and, ← BitVec.testBit_toNat, ← hlow,
    Nat.testBit_mod_two_pow, decide_eq_true hk, Bool.true_and]

/-- Settles O32: FXRSTOR alone writes FCW and FSW, from the image. -/
theorem pendingExceptionPersists : Obligations.PendingExceptionPersists := by
  unfold Obligations.PendingExceptionPersists
  intro s t
  refine ⟨fun pre op h => ?fxsave, fun h => ?sysenter, fun h => ?sysexit, fun pre op h => ?fxrstor⟩
  case fxsave =>
    obtain ⟨-, -, rfl⟩ := execFxsave_next h
    rfl
  case sysenter =>
    obtain ⟨-, -, -, -, -, -, rfl⟩ := execSysenter_next_iff.mp h
    rfl
  case sysexit =>
    obtain ⟨-, -, -, -, -, rfl⟩ := execSysexit_next_iff.mp h
    rfl
  case fxrstor =>
    obtain ⟨-, -, -, rfl⟩ := execFxrstor_next h
    rw [fpExceptionPending_iff, fxrstorNext_fsw, fxrstorNext_fcw, imageFsw]
    refine exists_congr fun k => and_congr_right fun hk => ?_
    rw [getLsbD_ofNat_field _ _ _ (by omega), getLsbD_ofNat_field _ _ _ (by omega)]

/-! ## FXSAVE, then FXRSTOR -/

/-- Settles O34: byte 5 of the image is 0. -/
theorem savedImageNeverRefused : Obligations.SavedImageNeverRefused := by
  unfold Obligations.SavedImageNeverRefused
  intro s t pre pre' op op' hwf hun h haddr
  obtain ⟨-, -, rfl⟩ := execFxsave_next h
  refine execFxrstor_ne_upperTagByte ?_
  rw [haddr]
  exact saved_reserved5 hwf hun

/-- The state FXRSTOR loads depends on the 512 addresses of its operand alone. -/
theorem fxrstorNext_congr (s : State) {addr addr' : Nat → Nat} (pc : Word) (h : ∀ b < 512, addr b = addr' b) :
    fxrstorNext s addr pc = fxrstorNext s addr' pc := by
  have hfield (lo n : Nat) (hlo : lo + n ≤ 512) : s.mem.field addr lo n = s.mem.field addr' lo n :=
    field_congr _ _ _ _ _ _ fun k hk => by rw [h _ (by omega)]
  have hslot (j : BitVec 3) : slotValue s.mem addr j.toNat = slotValue s.mem addr' j.toNat :=
    congrArg (BitVec.ofNat 80) (hfield _ _ (by omega))
  have hfsw : imageFsw s.mem addr = imageFsw s.mem addr' := congrArg (BitVec.ofNat 16) (hfield 2 2 (by decide))
  have hregs : imageRegs s.mem addr = imageRegs s.mem addr' := by
    simp only [imageRegs, hfsw, hslot]
  have hoffset (lo n : Nat) (hlo : lo + 4 ≤ 512) : imageOffset s addr lo n = imageOffset s addr' lo n := by
    rw [imageOffset, imageOffset, hfield lo 4 hlo, hfield lo 2 (by omega)]
  have hfop : imageFop s.mem addr = imageFop s.mem addr' := by
    rw [imageFop, imageFop, h 6 (by decide), h 7 (by decide)]
  rw [fxrstorNext, fxrstorNext, hfield 0 2 (by decide), hfsw, hfop, hoffset 8 _ (by decide), hfield 12 2 (by decide),
    hoffset 16 _ (by decide), hfield 20 2 (by decide), hregs, h 4 (by decide)]

section
variable (hwf : s.mem.wf = true) (hun : ∀ i < 512, ∀ j < 512, addr i = addr j → i = j)
include hwf hun

theorem restored_fsw (pc' : Word) : (fxrstorNext (fxsaveNext s addr pc) addr pc').fsw = s.fsw :=
  BitVec.eq_of_toNat_eq ((loaded_fsw ..).trans (saved_fsw hwf hun))

/-- Each register comes back: ST(i) is saved and loaded under the same TOS. -/
theorem restored_register (pc' : Word) (j : BitVec 3) :
    (fxrstorNext (fxsaveNext s addr pc) addr pc').fr.get j = s.fr.get j := by
  have hst : (fxrstorNext (fxsaveNext s addr pc) addr pc').st (j - tosOf s.fsw) = s.st (j - tosOf s.fsw) :=
    BitVec.eq_of_toNat_eq ((loaded_register ..).trans (saved_register hwf hun _))
  rw [State.st, State.st, restored_fsw hwf hun, BitVec.add_comm, BitVec.sub_add_cancel] at hst
  exact hst

/-- A register is empty after when it was before; the tag of the others is the class of their contents (decision D12). -/
theorem restored_tag (pc' : Word) (j : BitVec 3) : tagAt (fxrstorNext (fxsaveNext s addr pc) addr pc').ftw j.toNat =
    if tagAt s.ftw j.toNat = tagEmpty then tagEmpty else tagOf (s.fr.get j) := by
  rw [loaded_tag, restored_register hwf hun, saved_tags hwf hun, getLsbD_abridgedTag s.ftw j.isLt]
  by_cases hempty : tagAt s.ftw j.toNat = tagEmpty <;> simp [hempty]

end

theorem fxsaveNext_mode32 (s : State) (addr : Nat → Nat) (pc : Word) : (fxsaveNext s addr pc).mode32 = s.mode32 := rfl

/-- In 32-bit mode FXRSTOR loads the whole offset from an image FXSAVE has just written: the mode is still the same. -/
theorem reloaded_offset (pc : Word) (lo n : Nat) (h32 : s.mode32 = true) :
    (imageOffset (fxsaveNext s addr pc) addr lo n).toNat = (fxsaveNext s addr pc).mem.field addr lo 4 :=
  toNat_imageOffset _ _ _ _ ((fxsaveNext_mode32 ..).trans h32)

theorem setWidth_16_eq {v w : Word} (h : v.toNat % 65536 = w.toNat % 65536) : v.setWidth 16 = w.setWidth 16 :=
  BitVec.eq_of_toNat_eq (by rw [BitVec.toNat_setWidth, BitVec.toNat_setWidth]; exact h)

/-- Settles O33: each field is loaded as it was saved. -/
theorem saveRestoreRoundTrip : Obligations.SaveRestoreRoundTrip := by
  unfold Obligations.SaveRestoreRoundTrip
  intro s t u pre pre' op op' hwf hun hsave hrestore haddr
  obtain ⟨-, -, rfl⟩ := execFxsave_next hsave
  obtain ⟨-, -, -, rfl⟩ := execFxrstor_next hrestore
  rw [fxrstorNext_congr _ _ haddr]
  refine ⟨?fcw, restored_fsw hwf hun _, ?fop, ?fipSel, restored_register hwf hun _, ?fipLow, fun h32 => ?fipOff,
    restored_tag hwf hun _, fun hprev => ⟨?fdpSel, ?fdpLow, fun h32 => ?fdpOff⟩,
    fun hprev => ⟨?keptLow, fun h32 => ?keptOff, ?keptSel⟩⟩
  case fcw => exact BitVec.eq_of_toNat_eq ((loaded_fcw ..).trans (saved_fcw hwf hun))
  case fop => exact BitVec.eq_of_toNat_eq ((loaded_fop ..).trans (saved_fop hwf hun))
  case fipSel => exact BitVec.eq_of_toNat_eq ((loaded_fipSel ..).trans (saved_fipSel hwf hun))
  case fipLow => exact setWidth_16_eq ((toNat_imageOffset_mod ..).trans (saved_fipOff_low hwf hun))
  case fipOff => exact BitVec.eq_of_toNat_eq ((reloaded_offset _ _ _ h32).trans (saved_fipOff hwf hun h32))
  case fdpSel => exact BitVec.eq_of_toNat_eq ((loaded_fdpSel ..).trans (saved_fdpSel hwf hun hprev))
  case fdpLow => exact setWidth_16_eq ((toNat_imageOffset_mod ..).trans (saved_fdpOff_low hwf hun hprev))
  case fdpOff => exact BitVec.eq_of_toNat_eq ((reloaded_offset _ _ _ h32).trans (saved_fdpOff hwf hun hprev h32))
  case keptLow => exact (toNat_imageOffset_mod ..).trans (kept_fdpOff hwf hun hprev (by decide))
  case keptOff => exact (reloaded_offset _ _ _ h32).trans (kept_fdpOff hwf hun hprev (by decide))
  case keptSel =>
    rw [loaded_fdpSel]
    exact (saved_or_kept_fdpSel hwf hun hprev).imp_left fun h => BitVec.eq_of_toNat_eq ((loaded_fdpSel ..).trans h)

end Sys2Proof.SaveRestoreProofs
